-- ==== Sys2Proof/Word.lean ====
section
/-! DEFINITION. The word type of the hardware and the index of a general register (spec/00_scope.md R7, R10). -/

namespace Sys2Proof

/-- Every register, memory word, instruction word and PC value is a 32-bit bit vector (R10). -/
abbrev Word := BitVec 32

/-- The index of a general register, 0 to 31 (R7, R22). -/
abbrev RegIndex := Fin 32

end Sys2Proof
end

