-- ==== Sys2Proof/Config.lean ====
section
/-! DEFINITION. The parameters the spec leaves to the implementation or the caller (spec/00_scope.md R8):
memory size, program base, the PC offset of the driver, the cycle costs and the key numerals.
They are plain data, carried in State and written by no step (log 6), so that a statement about every state is a
statement about every value of them. The launch values INIT_REGS, INIT_MEM and INIT_PC are the arguments of
`Machine.State.launch`. -/

namespace Sys2Proof

/-- PC_IN_OFFSET, "0 or 4" (R8, D11): what the driver adds to an instruction's address to get the PC it hands in. -/
inductive PcInOffset where
  | zero
  | four
deriving DecidableEq, Repr

/-- The eight cycle cost constants, "unsigned 32-bit each" (R8, R181, R182). -/
structure CostTable where
  register       : Word
  load           : Word
  store          : Word
  branch         : Word
  jump           : Word
  nop            : Word
  halt           : Word
  branchNotTaken : Word
deriving DecidableEq, Repr

/-- `KEY_<OP>` of the 22 looked-up operations (R8, R71): a function code for the first eleven, an opcode for the rest.
One table, so that the numerals "can be replaced without touching any rule" (R71). -/
structure KeyTable where
  and   : BitVec 6
  or    : BitVec 6
  add   : BitVec 6
  sub   : BitVec 6
  addu  : BitVec 6
  sltu  : BitVec 6
  sll   : BitVec 6
  srl   : BitVec 6
  sra   : BitVec 6
  jr    : BitVec 6
  halt  : BitVec 6
  ori   : BitVec 6
  addi  : BitVec 6
  addiu : BitVec 6
  sltiu : BitVec 6
  lui   : BitVec 6
  lw    : BitVec 6
  sw    : BitVec 6
  beq   : BitVec 6
  bne   : BitVec 6
  j     : BitVec 6
  jal   : BitVec 6
deriving DecidableEq, Repr

/-- The parameters of a run (R8). -/
structure Params where
  /-- MEM_WORDS, "1 to 2^31" (R8, D6). -/
  memWords    : Nat
  /-- PROGRAM_BASE, any 32-bit value (R8, D9). -/
  programBase : Word
  pcInOffset  : PcInOffset
  costs       : CostTable
  keys        : KeyTable
deriving DecidableEq, Repr

end Sys2Proof
end

