-- ==== Sys2Proof/Syntax.lean ====
section
/-! DEFINITION. The instructions: one constructor per row of spec/opcode_table.json, in the table's order
(spec/30_encoding.md R70). A constructor carries every operand field of its encoding layout, used or not, as R81 hands
them over: REGISTER (rs, rt, rd, shamt), IMMEDIATE (rs, rt, imm16), JUMP (tgt26) (R61 to R63; log 14). -/

namespace Sys2Proof

inductive Instr where
  | nop
  | and   (rs rt rd : RegIndex) (shamt : BitVec 5)
  | or    (rs rt rd : RegIndex) (shamt : BitVec 5)
  | add   (rs rt rd : RegIndex) (shamt : BitVec 5)
  | sub   (rs rt rd : RegIndex) (shamt : BitVec 5)
  | addu  (rs rt rd : RegIndex) (shamt : BitVec 5)
  | sltu  (rs rt rd : RegIndex) (shamt : BitVec 5)
  | sll   (rs rt rd : RegIndex) (shamt : BitVec 5)
  | srl   (rs rt rd : RegIndex) (shamt : BitVec 5)
  | sra   (rs rt rd : RegIndex) (shamt : BitVec 5)
  | jr    (rs rt rd : RegIndex) (shamt : BitVec 5)
  | halt  (rs rt rd : RegIndex) (shamt : BitVec 5)
  | ori   (rs rt : RegIndex) (imm16 : BitVec 16)
  | addi  (rs rt : RegIndex) (imm16 : BitVec 16)
  | addiu (rs rt : RegIndex) (imm16 : BitVec 16)
  | sltiu (rs rt : RegIndex) (imm16 : BitVec 16)
  | lui   (rs rt : RegIndex) (imm16 : BitVec 16)
  | lw    (rs rt : RegIndex) (imm16 : BitVec 16)
  | sw    (rs rt : RegIndex) (imm16 : BitVec 16)
  | beq   (rs rt : RegIndex) (imm16 : BitVec 16)
  | bne   (rs rt : RegIndex) (imm16 : BitVec 16)
  | j     (tgt26 : BitVec 26)
  | jal   (tgt26 : BitVec 26)
deriving DecidableEq, Repr

end Sys2Proof
end

