-- ==== Sys2Proof/Machine/Registry.lean ====
section
/-! DEFINITION. The operation registry: name, encoding family, key and timing class of each of the 23 operations
(spec/30_encoding.md R68 to R72), the cycle cost lookup (spec/47_control_signals_and_cycles.md R180, R181), and the default
numerals and parameters. -/

namespace Sys2Proof

/-- The closed set of 23 operations (R70), in the order of spec/opcode_table.json. -/
inductive Op where
  | nop | and | or | add | sub | addu | sltu | sll | srl | sra | jr | halt
  | ori | addi | addiu | sltiu | lui | lw | sw | beq | bne | j | jal
deriving DecidableEq, Repr

/-- Encoding family (Glossary; R70): three values. -/
inductive Family where
  | register | immediate | jump
deriving DecidableEq, Repr

/-- Timing class (R180): seven values. -/
inductive TimingClass where
  | register | load | store | branch | jump | nop | halt
deriving DecidableEq, Repr

/-- Every operation, once. -/
def Op.all : List Op :=
  [.nop, .and, .or, .add, .sub, .addu, .sltu, .sll, .srl, .sra, .jr, .halt,
   .ori, .addi, .addiu, .sltiu, .lui, .lw, .sw, .beq, .bne, .j, .jal]

/-- The "encoding family" column of R70. -/
def Op.family : Op → Family
  | .nop   => .register
  | .and   => .register
  | .or    => .register
  | .add   => .register
  | .sub   => .register
  | .addu  => .register
  | .sltu  => .register
  | .sll   => .register
  | .srl   => .register
  | .sra   => .register
  | .jr    => .register
  | .halt  => .register
  | .ori   => .immediate
  | .addi  => .immediate
  | .addiu => .immediate
  | .sltiu => .immediate
  | .lui   => .immediate
  | .lw    => .immediate
  | .sw    => .immediate
  | .beq   => .immediate
  | .bne   => .immediate
  | .j     => .jump
  | .jal   => .jump

/-- The "timing class" column of R70. -/
def Op.timingClass : Op → TimingClass
  | .nop   => .nop
  | .and   => .register
  | .or    => .register
  | .add   => .register
  | .sub   => .register
  | .addu  => .register
  | .sltu  => .register
  | .sll   => .register
  | .srl   => .register
  | .sra   => .register
  | .jr    => .jump
  | .halt  => .halt
  | .ori   => .register
  | .addi  => .register
  | .addiu => .register
  | .sltiu => .register
  | .lui   => .register
  | .lw    => .load
  | .sw    => .store
  | .beq   => .branch
  | .bne   => .branch
  | .j     => .jump
  | .jal   => .jump

/-- The key of an operation (R68, R71); NOP has none in the lookup (R69). -/
def KeyTable.key (k : KeyTable) : Op → Option (BitVec 6)
  | .nop   => none
  | .and   => some k.and
  | .or    => some k.or
  | .add   => some k.add
  | .sub   => some k.sub
  | .addu  => some k.addu
  | .sltu  => some k.sltu
  | .sll   => some k.sll
  | .srl   => some k.srl
  | .sra   => some k.sra
  | .jr    => some k.jr
  | .halt  => some k.halt
  | .ori   => some k.ori
  | .addi  => some k.addi
  | .addiu => some k.addiu
  | .sltiu => some k.sltiu
  | .lui   => some k.lui
  | .lw    => some k.lw
  | .sw    => some k.sw
  | .beq   => some k.beq
  | .bne   => some k.bne
  | .j     => some k.j
  | .jal   => some k.jal

/-- A registry entry: "the tuple (name, family, key, timing class)" (R68). -/
structure RegistryEntry where
  op          : Op
  family      : Family
  key         : Option (BitVec 6)
  timingClass : TimingClass
deriving DecidableEq, Repr

/-- The entry of one operation under the numerals `k`. -/
def KeyTable.entry (k : KeyTable) (op : Op) : RegistryEntry :=
  ⟨op, op.family, k.key op, op.timingClass⟩

/-- The registry (R68, R69): a constant table, one entry per operation. -/
def KeyTable.registry (k : KeyTable) : List RegistryEntry := Op.all.map k.entry

/-- The operations found by their function code: the REGISTER family less NOP (R69, R70). -/
def Op.byFunct : List Op := [.and, .or, .add, .sub, .addu, .sltu, .sll, .srl, .sra, .jr, .halt]

/-- The operations found by their opcode: the IMMEDIATE and JUMP families (R70). -/
def Op.byOpcode : List Op := [.ori, .addi, .addiu, .sltiu, .lui, .lw, .sw, .beq, .bne, .j, .jal]

/-- The constant of a timing class (R181). -/
def CostTable.cost (c : CostTable) : TimingClass → Word
  | .register => c.register
  | .load     => c.load
  | .store    => c.store
  | .branch   => c.branch
  | .jump     => c.jump
  | .nop      => c.nop
  | .halt     => c.halt

/-- `cycleCost(op)` (R181): the constant of the operation's timing class, whatever its operands. -/
def CostTable.cycleCost (c : CostTable) (op : Op) : Word := c.cost op.timingClass

/-- PC_IN_OFFSET as a 32-bit value (R8, R224). -/
def PcInOffset.word : PcInOffset → Word
  | .zero => 0
  | .four => 4

/-! ### Defaults -/

/-- The default numerals of R71. PRESUMED: but for SLL's 0, which the source gives, the spec takes them from general
knowledge (D1, D2); log 7, log 8. -/
def KeyTable.mips : KeyTable where
  and   := 0x24
  or    := 0x25
  add   := 0x20
  sub   := 0x22
  addu  := 0x21
  sltu  := 0x2B
  sll   := 0x00
  srl   := 0x02
  sra   := 0x03
  jr    := 0x08
  halt  := 0x0C
  ori   := 0x0D
  addi  := 0x08
  addiu := 0x09
  sltiu := 0x0B
  lui   := 0x0F
  lw    := 0x23
  sw    := 0x2B
  beq   := 0x04
  bne   := 0x05
  j     := 0x02
  jal   := 0x03

/-- The parameters `State.reset` stands on. DESIGN CHOICE (log 3, 4, 5): the spec leaves the memory size, the base and
the costs open; the offset 0 is D11's, the numerals are R71's defaults. -/
def Params.default : Params where
  memWords    := 2 ^ 31
  programBase := 0
  pcInOffset  := .zero
  costs       := ⟨0, 0, 0, 0, 0, 0, 0, 0⟩
  keys        := .mips

end Sys2Proof
end

