-- ==== Sys2Proof/WellFormed.lean ====
section
/-! DEFINITION. What a well-formed instruction, a well-formed key table and well-formed parameters are. Each is a
decidable proposition. -/

namespace Sys2Proof

/-- SLL with every field zero has no word of its own: the all-zero word is NOP (spec/30_encoding.md R76; log 14).
Every other instruction is well formed at every value of its fields (R77). -/
abbrev Instr.wf (i : Instr) : Prop := i ≠ .sll 0 0 0 0

/-- The constraints on the numerals (R72): nonzero opcodes, pairwise different opcodes, pairwise different function codes;
and SLL's function code 0, the one numeral the source fixes (R71). -/
abbrev KeyTable.wf (k : KeyTable) : Prop :=
  (∀ op ∈ Op.byOpcode, k.key op ≠ some 0) ∧ (Op.byOpcode.map k.key).Nodup ∧ (Op.byFunct.map k.key).Nodup ∧ k.sll = 0

/-- MEM_WORDS is "1 to 2^31" and the numerals obey R72 (spec/00_scope.md R8). -/
abbrev Params.wf (p : Params) : Prop := 1 ≤ p.memWords ∧ p.memWords ≤ 2 ^ 31 ∧ p.keys.wf

end Sys2Proof
end

