-- ==== Sys2Proof/Decode.lean ====
section
/-! DEFINITION. The decoder of spec/30_encoding.md: field extraction (R64), the registry lookup (R75), and after them the
encoder, written from the layouts of R61 to R63. Both take the key table, whose defaults are R71's. -/

namespace Sys2Proof

/-! ### Field extraction (R64): operation-agnostic, total on all words -/

def opcodeField (w : Word) : BitVec 6  := w.extractLsb' 26 6
def rsField     (w : Word) : RegIndex  := (w.extractLsb' 21 5).toFin
def rtField     (w : Word) : RegIndex  := (w.extractLsb' 16 5).toFin
def rdField     (w : Word) : RegIndex  := (w.extractLsb' 11 5).toFin
def shamtField  (w : Word) : BitVec 5  := w.extractLsb' 6 5
def functField  (w : Word) : BitVec 6  := w.extractLsb' 0 6
def imm16Field  (w : Word) : BitVec 16 := w.extractLsb' 0 16
def tgt26Field  (w : Word) : BitVec 26 := w.extractLsb' 0 26

/-! ### From a word to an operation -/

/-- The opcode lookup consults the IMMEDIATE and JUMP entries only (R75 step 2; C3). -/
def KeyTable.lookupOpcode (k : KeyTable) (opcode : BitVec 6) : Option Op :=
  (k.registry.find? fun e => e.family ≠ .register ∧ e.key = some opcode).map (·.op)

/-- The function-code lookup consults the REGISTER entries only (R75 step 3; C3). -/
def KeyTable.lookupFunct (k : KeyTable) (funct : BitVec 6) : Option Op :=
  (k.registry.find? fun e => e.family = .register ∧ e.key = some funct).map (·.op)

/-- `Decode(W)` as an operation (R75): the zero word first, then the opcode lookup when the opcode field is nonzero, the
function-code lookup when it is zero. A nonzero opcode that matches no entry is not looked up by function code (D4;
log 18). -/
def decodeOp (k : KeyTable) (w : Word) : Option Op :=
  if w = 0 then some .nop
  else if opcodeField w ≠ 0 then k.lookupOpcode (opcodeField w)
  else k.lookupFunct (functField w)

/-- The operation `op` with the fields of `w`: what the entry point of its family receives (R81, D26). -/
def Instr.ofOp (op : Op) (w : Word) : Instr :=
  match op with
  | .nop   => .nop
  | .and   => .and   (rsField w) (rtField w) (rdField w) (shamtField w)
  | .or    => .or    (rsField w) (rtField w) (rdField w) (shamtField w)
  | .add   => .add   (rsField w) (rtField w) (rdField w) (shamtField w)
  | .sub   => .sub   (rsField w) (rtField w) (rdField w) (shamtField w)
  | .addu  => .addu  (rsField w) (rtField w) (rdField w) (shamtField w)
  | .sltu  => .sltu  (rsField w) (rtField w) (rdField w) (shamtField w)
  | .sll   => .sll   (rsField w) (rtField w) (rdField w) (shamtField w)
  | .srl   => .srl   (rsField w) (rtField w) (rdField w) (shamtField w)
  | .sra   => .sra   (rsField w) (rtField w) (rdField w) (shamtField w)
  | .jr    => .jr    (rsField w) (rtField w) (rdField w) (shamtField w)
  | .halt  => .halt  (rsField w) (rtField w) (rdField w) (shamtField w)
  | .ori   => .ori   (rsField w) (rtField w) (imm16Field w)
  | .addi  => .addi  (rsField w) (rtField w) (imm16Field w)
  | .addiu => .addiu (rsField w) (rtField w) (imm16Field w)
  | .sltiu => .sltiu (rsField w) (rtField w) (imm16Field w)
  | .lui   => .lui   (rsField w) (rtField w) (imm16Field w)
  | .lw    => .lw    (rsField w) (rtField w) (imm16Field w)
  | .sw    => .sw    (rsField w) (rtField w) (imm16Field w)
  | .beq   => .beq   (rsField w) (rtField w) (imm16Field w)
  | .bne   => .bne   (rsField w) (rtField w) (imm16Field w)
  | .j     => .j     (tgt26Field w)
  | .jal   => .jal   (tgt26Field w)

/-- What decoding answers: an instruction, or the error that carries the word (R75, R191). -/
inductive DecodeResult where
  | ok (i : Instr)
  | decodeError (w : Word)
deriving DecidableEq, Repr

/-- `Decode(W)` (R75), total on all 2^32 words (R80). -/
def decode (k : KeyTable) (w : Word) : DecodeResult :=
  match decodeOp k w with
  | some op => .ok (.ofOp op w)
  | none    => .decodeError w

/-! ### The encoder -/

/-- The operation of an instruction. -/
def Instr.op : Instr → Op
  | .nop           => .nop
  | .and _ _ _ _   => .and
  | .or _ _ _ _    => .or
  | .add _ _ _ _   => .add
  | .sub _ _ _ _   => .sub
  | .addu _ _ _ _  => .addu
  | .sltu _ _ _ _  => .sltu
  | .sll _ _ _ _   => .sll
  | .srl _ _ _ _   => .srl
  | .sra _ _ _ _   => .sra
  | .jr _ _ _ _    => .jr
  | .halt _ _ _ _  => .halt
  | .ori _ _ _     => .ori
  | .addi _ _ _    => .addi
  | .addiu _ _ _   => .addiu
  | .sltiu _ _ _   => .sltiu
  | .lui _ _ _     => .lui
  | .lw _ _ _      => .lw
  | .sw _ _ _      => .sw
  | .beq _ _ _     => .beq
  | .bne _ _ _     => .bne
  | .j _           => .j
  | .jal _         => .jal

/-- A register index as the 5 bits of its field. -/
def regBits (r : RegIndex) : BitVec 5 := BitVec.ofFin r

/-- REGISTER layout (R61): opcode 0, rs, rt, rd, shamt, funct. -/
def registerWord (rs rt rd : RegIndex) (shamt : BitVec 5) (funct : BitVec 6) : Word :=
  0#6 ++ regBits rs ++ regBits rt ++ regBits rd ++ shamt ++ funct

/-- IMMEDIATE layout (R62): opcode, rs, rt, imm16. -/
def immediateWord (opcode : BitVec 6) (rs rt : RegIndex) (imm16 : BitVec 16) : Word :=
  opcode ++ regBits rs ++ regBits rt ++ imm16

/-- JUMP layout (R63): opcode, tgt26. -/
def jumpWord (opcode : BitVec 6) (tgt26 : BitVec 26) : Word := opcode ++ tgt26

/-- The word of an instruction under the numerals `k` (R61 to R63, R71; NOP is the all-zero word, R160). -/
def encode (k : KeyTable) : Instr → Word
  | .nop               => 0
  | .and rs rt rd sh   => registerWord rs rt rd sh k.and
  | .or rs rt rd sh    => registerWord rs rt rd sh k.or
  | .add rs rt rd sh   => registerWord rs rt rd sh k.add
  | .sub rs rt rd sh   => registerWord rs rt rd sh k.sub
  | .addu rs rt rd sh  => registerWord rs rt rd sh k.addu
  | .sltu rs rt rd sh  => registerWord rs rt rd sh k.sltu
  | .sll rs rt rd sh   => registerWord rs rt rd sh k.sll
  | .srl rs rt rd sh   => registerWord rs rt rd sh k.srl
  | .sra rs rt rd sh   => registerWord rs rt rd sh k.sra
  | .jr rs rt rd sh    => registerWord rs rt rd sh k.jr
  | .halt rs rt rd sh  => registerWord rs rt rd sh k.halt
  | .ori rs rt imm     => immediateWord k.ori rs rt imm
  | .addi rs rt imm    => immediateWord k.addi rs rt imm
  | .addiu rs rt imm   => immediateWord k.addiu rs rt imm
  | .sltiu rs rt imm   => immediateWord k.sltiu rs rt imm
  | .lui rs rt imm     => immediateWord k.lui rs rt imm
  | .lw rs rt imm      => immediateWord k.lw rs rt imm
  | .sw rs rt imm      => immediateWord k.sw rs rt imm
  | .beq rs rt imm     => immediateWord k.beq rs rt imm
  | .bne rs rt imm     => immediateWord k.bne rs rt imm
  | .j tgt             => jumpWord k.j tgt
  | .jal tgt           => jumpWord k.jal tgt

/-! ### The opcode table as masks (R77), for the default numerals -/

/-- The "mask" and "match" of an operation's row in spec/opcode_table.json: a word belongs to the row when
`w &&& mask = match`. The NOP row has priority 0 and is tested before the SLL row. -/
def Op.maskMatch : Op → Word × Word
  | .nop   => (0xFFFFFFFF, 0x00000000)
  | .and   => (0xFC00003F, 0x00000024)
  | .or    => (0xFC00003F, 0x00000025)
  | .add   => (0xFC00003F, 0x00000020)
  | .sub   => (0xFC00003F, 0x00000022)
  | .addu  => (0xFC00003F, 0x00000021)
  | .sltu  => (0xFC00003F, 0x0000002B)
  | .sll   => (0xFC00003F, 0x00000000)
  | .srl   => (0xFC00003F, 0x00000002)
  | .sra   => (0xFC00003F, 0x00000003)
  | .jr    => (0xFC00003F, 0x00000008)
  | .halt  => (0xFC00003F, 0x0000000C)
  | .ori   => (0xFC000000, 0x34000000)
  | .addi  => (0xFC000000, 0x20000000)
  | .addiu => (0xFC000000, 0x24000000)
  | .sltiu => (0xFC000000, 0x2C000000)
  | .lui   => (0xFC000000, 0x3C000000)
  | .lw    => (0xFC000000, 0x8C000000)
  | .sw    => (0xFC000000, 0xAC000000)
  | .beq   => (0xFC000000, 0x10000000)
  | .bne   => (0xFC000000, 0x14000000)
  | .j     => (0xFC000000, 0x08000000)
  | .jal   => (0xFC000000, 0x0C000000)

/-- The word `w` lies in the row of `op`. -/
def Op.inRow (op : Op) (w : Word) : Prop := w &&& op.maskMatch.1 = op.maskMatch.2

/-! ### The host's reading of a table word -/

/-- The instruction the decoder reads from an instruction of `nbits` bits `w`, with the default numerals; an instruction
is one 32-bit word (R60), and a bit above `nbits` is 0. -/
def decodeTableWord (nbits w : Nat) : Option Instr :=
  match decode .mips (BitVec.ofNat 32 (w % 2 ^ nbits)) with
  | .ok i          => some i
  | .decodeError _ => none

end Sys2Proof
end

