-- ==== Sys2Proof/Machine/State.lean ====
section
/-! DEFINITION. The machine state as plain data (spec/10_state.md R20; spec/70_reset_and_hazards.md R222), the fault and
refusal reasons, the launch of a run and the state after reset. -/

namespace Sys2Proof.Machine

/-- `pc_sel` with `pc_out`: the target is there only when `pc_sel = REDIRECT` (R30). -/
inductive PcSel where
  | default
  | redirect (pcOut : Word)
deriving DecidableEq, Repr

/-- The `status` output of a completed instruction (R195). -/
inductive Status where
  | normal
  | branchNotTaken
  | halt
deriving DecidableEq, Repr

/-- The outputs of a completed instruction beside the new registers and memory (R190). -/
structure Outputs where
  pcSel       : PcSel
  status      : Status
  timingClass : TimingClass
  cycleCost   : Word
deriving DecidableEq, Repr

/-- Whether the driver's run goes on or has ended as halted (R225). A faulted run is the step's fault itself. -/
inductive RunStatus where
  | running
  | halted
deriving DecidableEq, Repr

/-- One element of Memory: its word index and its 32 bits. Memory has no byte view (R40 to R42, R46; log 9). -/
abbrev Cell := Nat × Word

/-- Memory as the elements that differ from what an unlisted one reads as, word index rising (`Memory.wf`). -/
abbrev Memory := List Cell

/-- Why a step stops. Each is terminal, and the state is the one before the step (R193, R197, R198). -/
inductive Fault where
  /-- Raised by decoding: no registry entry matches the word `w` (R191). Safe: the spec names this error. -/
  | decodeError (w : Word)
  /-- Raised by LW and SW: the index is outside Memory (R43, R44, R193). Safe: it stops where the original might go on (D7). -/
  | memIndex (idx : Word)
  /-- Raised by the driver: the PC maps to no instruction word (R193, R223). Safe: it stops where another driver might go on (D12). -/
  | fetch (pc : Word)
deriving DecidableEq, Repr

/-- Why an instruction has no meaning. -/
inductive Refusal where
  /-- Raised by an arm of `exec` whose instruction has no meaning yet; no arm of this model does. Safe. -/
  | notModelled (mnemonic : String)
deriving DecidableEq, Repr

/-- The state between two instructions: the three things of R20, what the reference driver owns beside them (R222), the
outputs of the last completed instruction, and the parameters of the run. -/
structure State where
  /-- The RegisterFile: x[0] to x[31], register 0 an ordinary one (R22). -/
  regs   : Vector Word 32
  /-- Memory: Mem[0] to Mem[memWords - 1] (R38). -/
  mem    : Memory
  /-- The ProgramCounter: the driver's `p`, the address of the next instruction (R28, R222). -/
  pc     : Word
  /-- The driver's cycle total, "a natural number, not visible to programs" (R222). -/
  cycles : Nat
  run    : RunStatus
  /-- The outputs of the last completed instruction; `none` before the first (log 13). -/
  out    : Option Outputs
  /-- The constants of the run (R8); no step writes them (log 6). -/
  params : Params
deriving DecidableEq, Repr

/-- The launch of a run (R222): `x = INIT_REGS`, `Mem = INIT_MEM`, `p = INIT_PC`, `cycles = 0`. -/
def State.launch (params : Params) (initRegs : Vector Word 32) (initMem : Memory) (initPc : Word) : State where
  regs   := initRegs
  mem    := initMem
  pc     := initPc
  cycles := 0
  run    := .running
  out    := none
  params := params

/-- The launch with the values the model names for the open parameters (R220; log 1 to 5): every register 0, nothing
listed in memory, PC 0. DESIGN CHOICE. -/
def State.reset : State := .launch .default (Vector.replicate 32 0) [] 0

end Sys2Proof.Machine
end

