-- ==== Sys2Proof/Machine/Operands.lean ====
section
/-! DEFINITION. How each operation assembles its operands (spec/30_encoding.md R65 to R67): register reads, the
extensions of the immediates, the shift amount, the word index of a load or store, the PC handed in. -/

namespace Sys2Proof.Machine

/-- `zext_32(imm16)` (R11). -/
def zext16 (v : BitVec 16) : Word := v.zeroExtend 32

/-- `sext_32(imm16)`: bit 15 copied into every higher bit (R11, R65). -/
def sext16 (v : BitVec 16) : Word := v.signExtend 32

/-- `sext_32(tgt26)`: bit 25 copied into every higher bit (R11, R66). -/
def sext26 (v : BitVec 26) : Word := v.signExtend 32

/-- `imm16 ++ 0x0000`: LUI's operand (R67, R124). -/
def immHi (v : BitVec 16) : Word := v ++ 0#16

/-- The shift count, unsigned 0 to 31 (R67). -/
def shiftCount (shamt : BitVec 5) : Nat := shamt.toNat

/-- `x[i]` (R12): every register is an ordinary one (R22). -/
def State.reg (s : State) (i : RegIndex) : Word := s.regs[i]

/-- The PC value handed to the core for this instruction (R29): the driver's `p + PC_IN_OFFSET` (R224; log 11). -/
def State.pcIn (s : State) : Word := s.pc + s.params.pcInOffset.word

/-- The word index of LW and SW: `x[rs] + zext_32(imm16)`, modulo 2^32 (R41, R132). -/
def State.effectiveIndex (s : State) (rs : RegIndex) (imm16 : BitVec 16) : Word := s.reg rs + zext16 imm16

end Sys2Proof.Machine
end

