-- ==== Sys2Proof/Machine/Flags.lean ====
section
/-! DEFINITION. The hardware has no flags and no condition codes (spec/10_state.md R34). What stands in their place is
here: the 1 or 0 a comparison writes to a register, and the status and PC outputs a branch decides. -/

namespace Sys2Proof.Machine

/-- The result of SLTU and SLTIU: 1 when `a` is below `b` as unsigned numbers, else 0 (R105, R123). -/
def setLessUnsigned (a b : Word) : Word := if a.toNat < b.toNat then 1 else 0

/-- The PC output of a branch: redirected when taken, else the default advance (R140, R141; C8). -/
def branchPcSel (taken : Bool) (target : Word) : PcSel := if taken then .redirect target else .default

/-- The status of a branch: BRANCH_NOT_TAKEN exactly when its condition is false (R195, D24). -/
def branchStatus (taken : Bool) : Status := if taken then .normal else .branchNotTaken

end Sys2Proof.Machine
end

