-- ==== Sys2Proof/Machine/Ops.lean ====
section
/-! DEFINITION. The named operations over memory and registers, and how an instruction ends: completed, or with an error.

This hardware has no trap mechanism: no state is saved, no mode changes, no vector exists, and nothing returns from a trap
(spec/60_exceptions.md R198, R199). What other hardware does on an exception is here `raise`: the instruction ends, the
state stands as it was, and the driver has the error (R13, R197). -/

namespace Sys2Proof.Machine

/-! ### Memory as a list of cells -/

/-- What an element reads as that no cell lists. DESIGN CHOICE (log 2): the launch contents INIT_MEM are open. -/
def unlistedWord : Word := 0

/-- The canonical form: word indices strictly rising, no cell equal to what an unlisted element reads as. -/
abbrev Memory.wf (m : Memory) : Prop :=
  m.Pairwise (fun a b => a.1 < b.1) ∧ ∀ c ∈ m, c.2 ≠ unlistedWord

/-- The element at index `a`. -/
def Memory.read : Memory → Nat → Word
  | [], _ => unlistedWord
  | (i, v) :: m, a => if a = i then v else Memory.read m a

/-- `m` with the cell `(a, v)` in front, unless the cell says no more than an unlisted element does. -/
def Memory.put (a : Nat) (v : Word) (m : Memory) : Memory :=
  if v = unlistedWord then m else (a, v) :: m

/-- The memory whose element `a` is `v`, in canonical form again. -/
def Memory.write : Memory → Nat → Word → Memory
  | [], a, v => Memory.put a v []
  | (i, u) :: m, a, v =>
    if a < i then Memory.put a v ((i, u) :: m)
    else if a = i then Memory.put a v m
    else (i, u) :: Memory.write m a v

/-! ### The accesses of an instruction -/

/-- The element number an index names, when `0 <= s(idx) < MEM_WORDS` (R41, R43, R44). -/
def State.element (s : State) (idx : Word) : Option Nat :=
  if 0 ≤ idx.toInt ∧ idx.toInt < s.params.memWords then some idx.toInt.toNat else none

/-- `MemRead(idx, 32)` (R43): changes nothing; outside Memory it raises `ExecutionFault(MemIndex, idx)`. -/
def State.memRead (s : State) (idx : Word) : Except Fault Word :=
  match s.element idx with
  | some a => .ok (s.mem.read a)
  | none   => .error (.memIndex idx)

/-- `MemWrite(idx, 32, v)` (R44): outside Memory it raises `ExecutionFault(MemIndex, idx)` and writes nothing. -/
def State.memWrite (s : State) (idx : Word) (v : Word) : Except Fault State :=
  match s.element idx with
  | some a => .ok { s with mem := s.mem.write a v }
  | none   => .error (.memIndex idx)

/-- `x[i] <- v` (R12): register 0 is written like any other (R22). -/
def State.writeReg (s : State) (i : RegIndex) (v : Word) : State := { s with regs := s.regs.set i v }

/-! ### How an instruction ends -/

/-- The instruction `op` completes with these PC and status outputs, and with the timing class and cycle cost of the
operation (R181, R190). -/
def State.complete (s : State) (op : Op) (pcSel : PcSel) (status : Status) : State :=
  { s with out := some ⟨pcSel, status, op.timingClass, s.params.costs.cycleCost op⟩ }

/-- An instruction that only writes one register: `pc_sel = DEFAULT`, `status = NORMAL`. -/
def State.writeBack (s : State) (op : Op) (dst : RegIndex) (v : Word) : Host.Outcome State Fault Refusal :=
  .next ((s.writeReg dst v).complete op .default .normal)

/-- A branch: no register and no memory change (R25); the PC and status outputs follow the condition (R140, R141). -/
def State.branch (s : State) (op : Op) (taken : Bool) (target : Word) : Host.Outcome State Fault Refusal :=
  .next (s.complete op (branchPcSel taken target) (branchStatus taken))

/-- A jump: always redirected, `status = NORMAL`. -/
def State.jump (s : State) (op : Op) (target : Word) : Host.Outcome State Fault Refusal :=
  .next (s.complete op (.redirect target) .normal)

/-- `raise`: the instruction ends with the error, with no state written and no outputs (R13, R197). -/
def raise (f : Fault) : Host.Outcome State Fault Refusal := .fault f

end Sys2Proof.Machine
end

