-- ==== Sys2Proof/Machine/Branch.lean ====
section
/-! DEFINITION. Conditional branches (spec/44_branch.md): BEQ with a zero-extended offset, BNE with a sign-extended one,
neither scaled; the asymmetry is the spec's (U2). -/

namespace Sys2Proof.Machine

/-- R140: `if x[rs] = x[rt] then pc <- pc + zext_32(imm16) else status <- BRANCH_NOT_TAKEN`. -/
def execBeq (rs rt : RegIndex) (imm16 : BitVec 16) (s : State) : Host.Outcome State Fault Refusal :=
  s.branch .beq (s.reg rs == s.reg rt) (s.pcIn + zext16 imm16)

/-- R141: `if x[rs] != x[rt] then pc <- pc + sext_32(imm16) else status <- BRANCH_NOT_TAKEN`. -/
def execBne (rs rt : RegIndex) (imm16 : BitVec 16) (s : State) : Host.Outcome State Fault Refusal :=
  s.branch .bne (s.reg rs != s.reg rt) (s.pcIn + sext16 imm16)

end Sys2Proof.Machine
end

