-- ==== Sys2Proof/Machine/ImmediateAlu.lean ====
section
/-! DEFINITION. Immediate-format arithmetic and logic (spec/42_immediate_alu.md): ORI, ADDI, ADDIU, SLTIU, LUI. The
destination is `x[rt]`. -/

namespace Sys2Proof.Machine

/-- R120: `x[rt] <- x[rs] | zext_32(imm16)`. -/
def execOri (rs rt : RegIndex) (imm16 : BitVec 16) (s : State) : Host.Outcome State Fault Refusal :=
  s.writeBack .ori rt (s.reg rs ||| zext16 imm16)

/-- R121: `x[rt] <- x[rs] + sext_32(imm16)`, modulo 2^32, no trap. -/
def execAddi (rs rt : RegIndex) (imm16 : BitVec 16) (s : State) : Host.Outcome State Fault Refusal :=
  s.writeBack .addi rt (s.reg rs + sext16 imm16)

/-- R122: `x[rt] <- x[rs] + sext_32(imm16)`, the same value as ADDI. -/
def execAddiu (rs rt : RegIndex) (imm16 : BitVec 16) (s : State) : Host.Outcome State Fault Refusal :=
  s.writeBack .addiu rt (s.reg rs + sext16 imm16)

/-- R123: `x[rt] <- (u(x[rs]) < u(zext_32(imm16))) ? 1 : 0`. The destination is the spec's decision (D5; log 16). -/
def execSltiu (rs rt : RegIndex) (imm16 : BitVec 16) (s : State) : Host.Outcome State Fault Refusal :=
  s.writeBack .sltiu rt (setLessUnsigned (s.reg rs) (zext16 imm16))

/-- R124: `x[rt] <- imm16 ++ 0x0000`; `rs` is ignored. -/
def execLui (_rs rt : RegIndex) (imm16 : BitVec 16) (s : State) : Host.Outcome State Fault Refusal :=
  s.writeBack .lui rt (immHi imm16)

end Sys2Proof.Machine
end

