-- ==== Sys2Proof/Machine/Jump.lean ====
section
/-! DEFINITION. Unconditional control transfer (spec/45_jump.md): J, JAL, JR. -/

namespace Sys2Proof.Machine

/-- The link register's index (spec/10_state.md R23). -/
def linkReg : RegIndex := 31

/-- R150: `pc <- sext_32(tgt26)`. -/
def execJ (tgt26 : BitVec 26) (s : State) : Host.Outcome State Fault Refusal :=
  s.jump .j (sext26 tgt26)

/-- R151: `x[31] <- pc`; `pc <- PROGRAM_BASE + sext_32(tgt26)`. The link is the PC as handed in. -/
def execJal (tgt26 : BitVec 26) (s : State) : Host.Outcome State Fault Refusal :=
  (s.writeReg linkReg s.pcIn).jump .jal (s.params.programBase + sext26 tgt26)

/-- R152: `pc <- x[rs]`; `rt`, `rd` and `shamt` are ignored. -/
def execJr (rs _rt _rd : RegIndex) (_shamt : BitVec 5) (s : State) : Host.Outcome State Fault Refusal :=
  s.jump .jr (s.reg rs)

end Sys2Proof.Machine
end

