-- ==== Sys2Proof/Machine/LoadStore.lean ====
section
/-! DEFINITION. Loads and stores (spec/43_load_store.md): LW, SW, at the word index of R132. -/

namespace Sys2Proof.Machine

/-- R130: `idx := x[rs] + zext_32(imm16)`; `x[rt] <- MemRead(idx, 32)`. -/
def execLw (rs rt : RegIndex) (imm16 : BitVec 16) (s : State) : Host.Outcome State Fault Refusal :=
  match s.memRead (s.effectiveIndex rs imm16) with
  | .ok v    => s.writeBack .lw rt v
  | .error f => raise f

/-- R131: `idx := x[rs] + zext_32(imm16)`; `MemWrite(idx, 32, x[rt])`. -/
def execSw (rs rt : RegIndex) (imm16 : BitVec 16) (s : State) : Host.Outcome State Fault Refusal :=
  match s.memWrite (s.effectiveIndex rs imm16) (s.reg rt) with
  | .ok s'   => .next (s'.complete .sw .default .normal)
  | .error f => raise f

end Sys2Proof.Machine
end

