-- ==== Sys2Proof/Machine/NopHalt.lean ====
section
/-! DEFINITION. No-operation and halt (spec/46_nop_halt.md): NOP, HALT. -/

namespace Sys2Proof.Machine

/-- R160: no register and no memory element is read or written. -/
def execNop (s : State) : Host.Outcome State Fault Refusal :=
  .next (s.complete .nop .default .normal)

/-- R161: `status <- HALT`, unconditionally; no register and no memory element is read or written. -/
def execHalt (_rs _rt _rd : RegIndex) (_shamt : BitVec 5) (s : State) : Host.Outcome State Fault Refusal :=
  .next (s.complete .halt .default .halt)

end Sys2Proof.Machine
end

