-- ==== Sys2Proof/Machine/RegisterAlu.lean ====
section
/-! DEFINITION. Register-format arithmetic and logic (spec/40_register_alu.md): AND, OR, ADD, SUB, ADDU, SLTU.
`shamt` is ignored by all six (R77). -/

namespace Sys2Proof.Machine

/-- R100: `x[rd] <- x[rs] & x[rt]`. -/
def execAnd (rs rt rd : RegIndex) (_shamt : BitVec 5) (s : State) : Host.Outcome State Fault Refusal :=
  s.writeBack .and rd (s.reg rs &&& s.reg rt)

/-- R101: `x[rd] <- x[rs] | x[rt]`. -/
def execOr (rs rt rd : RegIndex) (_shamt : BitVec 5) (s : State) : Host.Outcome State Fault Refusal :=
  s.writeBack .or rd (s.reg rs ||| s.reg rt)

/-- R102: `x[rd] <- x[rs] + x[rt]`, modulo 2^32, no trap. -/
def execAdd (rs rt rd : RegIndex) (_shamt : BitVec 5) (s : State) : Host.Outcome State Fault Refusal :=
  s.writeBack .add rd (s.reg rs + s.reg rt)

/-- R103: `x[rd] <- x[rs] - x[rt]`, modulo 2^32, no trap. The operand order is the spec's reading (N5; log 15). -/
def execSub (rs rt rd : RegIndex) (_shamt : BitVec 5) (s : State) : Host.Outcome State Fault Refusal :=
  s.writeBack .sub rd (s.reg rs - s.reg rt)

/-- R104: ADDU completes and changes no register and no memory, on purpose (C7, U1). -/
def execAddu (_rs _rt _rd : RegIndex) (_shamt : BitVec 5) (s : State) : Host.Outcome State Fault Refusal :=
  .next (s.complete .addu .default .normal)

/-- R105: `x[rd] <- (u(x[rs]) < u(x[rt])) ? 1 : 0`. -/
def execSltu (rs rt rd : RegIndex) (_shamt : BitVec 5) (s : State) : Host.Outcome State Fault Refusal :=
  s.writeBack .sltu rd (setLessUnsigned (s.reg rs) (s.reg rt))

end Sys2Proof.Machine
end

