-- ==== Sys2Proof/Machine/Shifts.lean ====
section
/-! DEFINITION. Shifts by a constant amount (spec/41_shifts.md): SLL, SRL, SRA. The value is `x[rt]`, the count `shamt`;
`rs` is ignored (R77). -/

namespace Sys2Proof.Machine

/-- R110: `x[rd] <- x[rt] << shamt`, zeros entering at bit 0. -/
def execSll (_rs rt rd : RegIndex) (shamt : BitVec 5) (s : State) : Host.Outcome State Fault Refusal :=
  s.writeBack .sll rd (s.reg rt <<< shiftCount shamt)

/-- R111: `x[rd] <- x[rt] >>u shamt`, zeros entering at bit 31; a count of 0 copies (D23; log 16). -/
def execSrl (_rs rt rd : RegIndex) (shamt : BitVec 5) (s : State) : Host.Outcome State Fault Refusal :=
  s.writeBack .srl rd (s.reg rt >>> shiftCount shamt)

/-- R112: `x[rd] <- x[rt] >>s shamt`, copies of bit 31 entering at bit 31. -/
def execSra (_rs rt rd : RegIndex) (shamt : BitVec 5) (s : State) : Host.Outcome State Fault Refusal :=
  s.writeBack .sra rd ((s.reg rt).sshiftRight (shiftCount shamt))

end Sys2Proof.Machine
end

