-- ==== Sys2Proof/Machine/Dispatch.lean ====
section
/-! DEFINITION. `exec`: one arm per instruction (spec/30_encoding.md R81). -/

namespace Sys2Proof.Machine

/-- `Execute(op, W, pc, x, Mem)` (spec/00_scope.md R14): the core alone, without the driver. -/
def exec (i : Instr) (s : State) : Host.Outcome State Fault Refusal :=
  match i with
  | .nop => Sys2Proof.Machine.execNop s
  | .and rs rt rd shamt => Sys2Proof.Machine.execAnd rs rt rd shamt s
  | .or rs rt rd shamt => Sys2Proof.Machine.execOr rs rt rd shamt s
  | .add rs rt rd shamt => Sys2Proof.Machine.execAdd rs rt rd shamt s
  | .sub rs rt rd shamt => Sys2Proof.Machine.execSub rs rt rd shamt s
  | .addu rs rt rd shamt => Sys2Proof.Machine.execAddu rs rt rd shamt s
  | .sltu rs rt rd shamt => Sys2Proof.Machine.execSltu rs rt rd shamt s
  | .sll rs rt rd shamt => Sys2Proof.Machine.execSll rs rt rd shamt s
  | .srl rs rt rd shamt => Sys2Proof.Machine.execSrl rs rt rd shamt s
  | .sra rs rt rd shamt => Sys2Proof.Machine.execSra rs rt rd shamt s
  | .jr rs rt rd shamt => Sys2Proof.Machine.execJr rs rt rd shamt s
  | .halt rs rt rd shamt => Sys2Proof.Machine.execHalt rs rt rd shamt s
  | .ori rs rt imm16 => Sys2Proof.Machine.execOri rs rt imm16 s
  | .addi rs rt imm16 => Sys2Proof.Machine.execAddi rs rt imm16 s
  | .addiu rs rt imm16 => Sys2Proof.Machine.execAddiu rs rt imm16 s
  | .sltiu rs rt imm16 => Sys2Proof.Machine.execSltiu rs rt imm16 s
  | .lui rs rt imm16 => Sys2Proof.Machine.execLui rs rt imm16 s
  | .lw rs rt imm16 => Sys2Proof.Machine.execLw rs rt imm16 s
  | .sw rs rt imm16 => Sys2Proof.Machine.execSw rs rt imm16 s
  | .beq rs rt imm16 => Sys2Proof.Machine.execBeq rs rt imm16 s
  | .bne rs rt imm16 => Sys2Proof.Machine.execBne rs rt imm16 s
  | .j tgt26 => Sys2Proof.Machine.execJ tgt26 s
  | .jal tgt26 => Sys2Proof.Machine.execJal tgt26 s

end Sys2Proof.Machine
end

