-- ==== Sys2Proof/Machine/Driver.lean ====
section
/-! DEFINITION. The core's `Step(W, pc, x, Mem)` (spec/00_scope.md R14) and the parts of the reference driver around it
(spec/70_reset_and_hazards.md R223, R224): fetching a word and booking a completed instruction. The driver is the spec's
own decision, not the source's (D11, D12; log 10). -/

namespace Sys2Proof.Machine

/-- `Step(W, pc, x, Mem)` (R14, R75): decode the word, execute the operation. -/
def coreStep (w : Word) (s : State) : Host.Outcome State Fault Refusal :=
  match decode s.params.keys w with
  | .ok i          => exec i s
  | .decodeError w => raise (.decodeError w)

/-- The element that holds the instruction word of PC value `p` (R223): `off = p - PROGRAM_BASE`, a multiple of 4, not
negative as a signed number, `off / 4` below MEM_WORDS. -/
def State.fetchElement (s : State) (p : Word) : Option Nat :=
  let off := p - s.params.programBase
  if off.toNat % 4 = 0 ∧ 0 ≤ off.toInt ∧ off.toInt / 4 < s.params.memWords then some (off.toInt / 4).toNat else none

/-- Fetch (R223): the word the PC maps to, or `ExecutionFault(Fetch, p)`. -/
def State.fetch (s : State) : Except Fault Word :=
  match s.fetchElement s.pc with
  | some a => .ok (s.mem.read a)
  | none   => .error (.fetch s.pc)

/-- The PC of the next instruction (R224): a redirect replaces the default advance. -/
def nextPc (p : Word) : PcSel → Word
  | .default    => p + 4
  | .redirect t => t

/-- What the driver books for a completed instruction (R182, R224). -/
def bookedCost (c : CostTable) (o : Outputs) : Word :=
  match o.status with
  | .normal         => o.cycleCost
  | .branchNotTaken => c.branchNotTaken
  | .halt           => o.cycleCost

/-- What the driver does with a completed instruction's outputs (R224): book the cost, then end the run with `p` unchanged
on HALT, else move `p`. -/
def State.settle (s : State) : State :=
  match s.out with
  | none   => s
  | some o =>
    let s := { s with cycles := s.cycles + (bookedCost s.params.costs o).toNat }
    match o.status with
    | .halt           => { s with run := .halted }
    | .normal         => { s with pc := nextPc s.pc o.pcSel }
    | .branchNotTaken => { s with pc := nextPc s.pc o.pcSel }

/-- One driver step (R223 to R225): fetch, decode, execute, settle. A run that has ended takes no further step: the state
stands (log 12). -/
def driverStep (s : State) : Host.Outcome State Fault Refusal :=
  match s.run with
  | .halted  => .next s
  | .running =>
    match s.fetch with
    | .error f => raise f
    | .ok w    =>
      match coreStep w s with
      | .next t    => .next t.settle
      | .fault f   => .fault f
      | .refused r => .refused r

/-- A state whose PC maps to a word, changed only where `s`'s does not: the PC is then PROGRAM_BASE, whose element 0 exists
(R223), and Memory has at least one element (R8). -/
def State.makeFetchable (s : State) : State :=
  match s.fetchElement s.pc with
  | some _ => s
  | none   => { s with pc := s.params.programBase, params := { s.params with memWords := max 1 s.params.memWords } }

/-- The word `w` in the element the next fetch reads. -/
def State.placeFetchWord (s : State) (w : Word) : State :=
  match s.fetchElement s.pc with
  | some a => { s with mem := s.mem.write a w }
  | none   => s

end Sys2Proof.Machine
end

