-- ==== Sys2Proof/Machine/Step.lean ====
section
/-! DEFINITION. One step of the machine: one driver step (spec/70_reset_and_hazards.md R224), and the host's placing of an
instruction where the next step fetches it. -/

namespace Sys2Proof.Machine

/-- One step of the machine is one driver step (R224). -/
def step (s : State) : Host.Outcome State Fault Refusal := driverStep s

/-- `s` with the instruction of `nbits` bits `w` in the element the next step fetches, the run going on. It stands for the
loader, which is outside the hardware (spec/00_scope.md R5; log 19). -/
def State.withFetchWord (s : State) (nbits w : Nat) : State :=
  ({ s with run := .running }.makeFetchable).placeFetchWord (BitVec.ofNat 32 (w % 2 ^ nbits))

end Sys2Proof.Machine
end

