-- ==== Sys2Proof/Machine/Datapath.lean ====
section
/-! DEFINITION. The core as a datapath: the control word of each operation (spec/47_control_signals_and_cycles.md R171), the
meaning of its signals (R172), the block's output ports (spec/10_state.md R39) and the commit of their values. It is the
spec's second description of the 23 operations (D21); the instruction rules are the definition, and R173 says the two agree.

A dash of the table ("inactive or its value does not matter") is `none`, and an input selected by a dash is the argument
`dc`, any word at all: R173 is claimed for every `dc` (log 22). -/

namespace Sys2Proof.Machine

inductive ASrc where
  | rs | rt
deriving DecidableEq, Repr

inductive BSrc where
  | rt | shamt | immZ | immS | immHi
deriving DecidableEq, Repr

inductive AluFn where
  | and | or | add | sub | sltu | sll | srl | sra | passB | eq
deriving DecidableEq, Repr

inductive RegDst where
  | rd | rt | r31
deriving DecidableEq, Repr

inductive WbSrc where
  | alu | mem | pc
deriving DecidableEq, Repr

inductive PcCtl where
  | default | brEqZ | brNeS | jAbs | jBase | jReg
deriving DecidableEq, Repr

inductive StCtl where
  | normal | halt | nt
deriving DecidableEq, Repr

/-- The columns of the table of R171. -/
structure ControlWord where
  family      : Family
  timingClass : TimingClass
  aSrc        : Option ASrc
  bSrc        : Option BSrc
  aluFn       : Option AluFn
  regWe       : Bool
  regDst      : Option RegDst
  wbSrc       : Option WbSrc
  memRe       : Bool
  memWe       : Bool
  pcCtl       : PcCtl
  stCtl       : StCtl
deriving DecidableEq, Repr

/-- The table of R171, row by row. -/
def controlWord : Op → ControlWord
  | .and   => ⟨.register,  .register, some .rs, some .rt,    some .and,   true,  some .rd,  some .alu, false, false, .default, .normal⟩
  | .or    => ⟨.register,  .register, some .rs, some .rt,    some .or,    true,  some .rd,  some .alu, false, false, .default, .normal⟩
  | .add   => ⟨.register,  .register, some .rs, some .rt,    some .add,   true,  some .rd,  some .alu, false, false, .default, .normal⟩
  | .sub   => ⟨.register,  .register, some .rs, some .rt,    some .sub,   true,  some .rd,  some .alu, false, false, .default, .normal⟩
  | .addu  => ⟨.register,  .register, none,     none,        none,        false, none,      none,      false, false, .default, .normal⟩
  | .sltu  => ⟨.register,  .register, some .rs, some .rt,    some .sltu,  true,  some .rd,  some .alu, false, false, .default, .normal⟩
  | .sll   => ⟨.register,  .register, some .rt, some .shamt, some .sll,   true,  some .rd,  some .alu, false, false, .default, .normal⟩
  | .srl   => ⟨.register,  .register, some .rt, some .shamt, some .srl,   true,  some .rd,  some .alu, false, false, .default, .normal⟩
  | .sra   => ⟨.register,  .register, some .rt, some .shamt, some .sra,   true,  some .rd,  some .alu, false, false, .default, .normal⟩
  | .jr    => ⟨.register,  .jump,     some .rs, none,        none,        false, none,      none,      false, false, .jReg,    .normal⟩
  | .halt  => ⟨.register,  .halt,     none,     none,        none,        false, none,      none,      false, false, .default, .halt⟩
  | .ori   => ⟨.immediate, .register, some .rs, some .immZ,  some .or,    true,  some .rt,  some .alu, false, false, .default, .normal⟩
  | .addi  => ⟨.immediate, .register, some .rs, some .immS,  some .add,   true,  some .rt,  some .alu, false, false, .default, .normal⟩
  | .addiu => ⟨.immediate, .register, some .rs, some .immS,  some .add,   true,  some .rt,  some .alu, false, false, .default, .normal⟩
  | .sltiu => ⟨.immediate, .register, some .rs, some .immZ,  some .sltu,  true,  some .rt,  some .alu, false, false, .default, .normal⟩
  | .lui   => ⟨.immediate, .register, none,     some .immHi, some .passB, true,  some .rt,  some .alu, false, false, .default, .normal⟩
  | .lw    => ⟨.immediate, .load,     some .rs, some .immZ,  some .add,   true,  some .rt,  some .mem, true,  false, .default, .normal⟩
  | .sw    => ⟨.immediate, .store,    some .rs, some .immZ,  some .add,   false, none,      none,      false, true,  .default, .normal⟩
  | .beq   => ⟨.immediate, .branch,   some .rs, some .rt,    some .eq,    false, none,      none,      false, false, .brEqZ,   .nt⟩
  | .bne   => ⟨.immediate, .branch,   some .rs, some .rt,    some .eq,    false, none,      none,      false, false, .brNeS,   .nt⟩
  | .j     => ⟨.jump,      .jump,     none,     none,        none,        false, none,      none,      false, false, .jAbs,    .normal⟩
  | .jal   => ⟨.jump,      .jump,     none,     none,        none,        true,  some .r31, some .pc,  false, false, .jBase,   .normal⟩
  | .nop   => ⟨.register,  .nop,      none,     none,        none,        false, none,      none,      false, false, .default, .normal⟩

/-- The A input (R172). -/
def ASrc.select (w : Word) (s : State) : ASrc → Word
  | .rs => s.reg (rsField w)
  | .rt => s.reg (rtField w)

/-- The B input (R172). -/
def BSrc.select (w : Word) (s : State) : BSrc → Word
  | .rt    => s.reg (rtField w)
  | .shamt => (shamtField w).zeroExtend 32
  | .immZ  => zext16 (imm16Field w)
  | .immS  => sext16 (imm16Field w)
  | .immHi => Machine.immHi (imm16Field w)

/-- The ALU (R172); the 1-bit result of EQ is the word 1 or 0. -/
def AluFn.apply (a b : Word) : AluFn → Word
  | .and   => a &&& b
  | .or    => a ||| b
  | .add   => a + b
  | .sub   => a - b
  | .sltu  => if a.toNat < b.toNat then 1 else 0
  | .sll   => a <<< (b.extractLsb' 0 5).toNat
  | .srl   => a >>> (b.extractLsb' 0 5).toNat
  | .sra   => a.sshiftRight (b.extractLsb' 0 5).toNat
  | .passB => b
  | .eq    => if a = b then 1 else 0

/-- The destination (R172). -/
def RegDst.select (w : Word) : RegDst → RegIndex
  | .rd  => rdField w
  | .rt  => rtField w
  | .r31 => 31

/-- The `error` port: "none, DecodeError, ExecutionFault" with what each records (R39, R191, R193). -/
inductive PortError where
  | none
  | decodeError (w : Word)
  | executionFault (idx : Word)
deriving DecidableEq, Repr

/-- The output ports of R39. A port whose value has no meaning unless an enable is set is an `Option`: `regWrite` is
`reg_we` with `reg_widx`, `reg_wdata`; `memRead` is `mem_re` with `mem_idx`; `memWrite` is `mem_we` with `mem_idx`,
`mem_wdata`; `outputs` is `pc_sel`, `pc_out`, `status`, `timing_class`, `cycle_cost`, absent when there is an error (R191,
R183). `op` is `none` when invalid. -/
structure Ports where
  op       : Option Op
  regWrite : Option (RegIndex × Word)
  memRead  : Option Word
  memWrite : Option (Word × Word)
  outputs  : Option Outputs
  error    : PortError
deriving DecidableEq, Repr

/-- The PC output (R172), from the ALU result `alu` (EQ), the PC handed in and the fields of the word. -/
def PcCtl.select (w alu : Word) (s : State) : PcCtl → PcSel
  | .default => .default
  | .brEqZ   => if alu ≠ 0 then .redirect (s.pcIn + zext16 (imm16Field w)) else .default
  | .brNeS   => if alu = 0 then .redirect (s.pcIn + sext16 (imm16Field w)) else .default
  | .jAbs    => .redirect (sext26 (tgt26Field w))
  | .jBase   => .redirect (s.params.programBase + sext26 (tgt26Field w))
  | .jReg    => .redirect (s.reg (rsField w))

/-- The status output (R172): NT is BRANCH_NOT_TAKEN if the branch is not taken, else NORMAL. -/
def StCtl.select (pcSel : PcSel) : StCtl → Status
  | .normal => .normal
  | .halt   => .halt
  | .nt     => if pcSel = .default then .branchNotTaken else .normal

/-- The ALU result under a control word (R172). -/
def ControlWord.alu (c : ControlWord) (dc w : Word) (s : State) : Word :=
  let a := (c.aSrc.map (·.select w s)).getD dc
  let b := (c.bSrc.map (·.select w s)).getD dc
  (c.aluFn.map (·.apply a b)).getD dc

/-- The ports while the control word of `op` drives the datapath on the word `w` (R171 to R173): the memory index is the
ALU result, the write data is `x[rt]`; when the access faults there is no register write, no memory change and no output. -/
def opPorts (dc : Word) (op : Op) (w : Word) (s : State) : Ports :=
  let c := controlWord op
  let alu := c.alu dc w s
  let access := c.memRe || c.memWe
  let fails := access && (s.element alu).isNone
  let rdata := ((s.element alu).map s.mem.read).getD dc
  let wdata := match c.wbSrc with
    | some .alu => alu
    | some .mem => rdata
    | some .pc  => s.pcIn
    | none      => dc
  let pcSel := c.pcCtl.select w alu s
  { op       := some op
    regWrite := if c.regWe && !fails then c.regDst.map fun d => (d.select w, wdata) else none
    memRead  := if c.memRe then some alu else none
    memWrite := if c.memWe && !fails then some (alu, s.reg (rtField w)) else none
    outputs  := if fails then none else some ⟨pcSel, c.stCtl.select pcSel, c.timingClass, s.params.costs.cost c.timingClass⟩
    error    := if fails then .executionFault alu else .none }

/-- The ports of the whole core on the word `w` (R39): the decoder in front, with `op` invalid and the error raised when no
entry matches. -/
def corePorts (dc : Word) (w : Word) (s : State) : Ports :=
  match decodeOp s.params.keys w with
  | some op => opPorts dc op w s
  | none    => { op := none, regWrite := none, memRead := none, memWrite := none, outputs := none, error := .decodeError w }

/-- What the caller's register file and memory take from the ports at the end of the instruction (R14, R39). -/
def commit (s : State) (p : Ports) : Host.Outcome State Fault Refusal :=
  match p.error with
  | .decodeError w      => raise (.decodeError w)
  | .executionFault idx => raise (.memIndex idx)
  | .none               =>
    let s₁ := match p.regWrite with
      | some (r, v) => s.writeReg r v
      | none        => s
    let s₂ := match p.memWrite with
      | some (idx, v) => { s₁ with mem := s₁.mem.write idx.toNat v }
      | none          => s₁
    .next { s₂ with out := p.outputs }

end Sys2Proof.Machine
end

