-- ==== Sys2Proof/Safety.lean ====
section
/-! DEFINITION. The terms claims use: the invariant of the machine, which registers and which element an instruction touches,
and how a run ends (spec/70_reset_and_hazards.md R225). -/

namespace Sys2Proof

/-- The register an instruction writes: the "writes" column of spec/10_state.md R25. -/
def Instr.writes : Instr → Option RegIndex
  | .nop           => none
  | .and _ _ rd _  => some rd
  | .or _ _ rd _   => some rd
  | .add _ _ rd _  => some rd
  | .sub _ _ rd _  => some rd
  | .addu _ _ _ _  => none
  | .sltu _ _ rd _ => some rd
  | .sll _ _ rd _  => some rd
  | .srl _ _ rd _  => some rd
  | .sra _ _ rd _  => some rd
  | .jr _ _ _ _    => none
  | .halt _ _ _ _  => none
  | .ori _ rt _    => some rt
  | .addi _ rt _   => some rt
  | .addiu _ rt _  => some rt
  | .sltiu _ rt _  => some rt
  | .lui _ rt _    => some rt
  | .lw _ rt _     => some rt
  | .sw _ _ _      => none
  | .beq _ _ _     => none
  | .bne _ _ _     => none
  | .j _           => none
  | .jal _         => some 31

/-- The registers an instruction reads: the "reads" column of spec/10_state.md R25. -/
def Instr.reads : Instr → List RegIndex
  | .nop            => []
  | .and rs rt _ _  => [rs, rt]
  | .or rs rt _ _   => [rs, rt]
  | .add rs rt _ _  => [rs, rt]
  | .sub rs rt _ _  => [rs, rt]
  | .addu _ _ _ _   => []
  | .sltu rs rt _ _ => [rs, rt]
  | .sll _ rt _ _   => [rt]
  | .srl _ rt _ _   => [rt]
  | .sra _ rt _ _   => [rt]
  | .jr rs _ _ _    => [rs]
  | .halt _ _ _ _   => []
  | .ori rs _ _     => [rs]
  | .addi rs _ _    => [rs]
  | .addiu rs _ _   => [rs]
  | .sltiu rs _ _   => [rs]
  | .lui _ _ _      => []
  | .lw rs _ _      => [rs]
  | .sw rs rt _     => [rs, rt]
  | .beq rs rt _    => [rs, rt]
  | .bne rs rt _    => [rs, rt]
  | .j _            => []
  | .jal _          => []

namespace Machine

/-- What holds of the outputs of a completed instruction: the cost is its timing class's (R181), only BEQ and BNE give
BRANCH_NOT_TAKEN and then without a redirect (R195, R30), only HALT gives HALT and then without a redirect. -/
abbrev Outputs.consistent (c : CostTable) (o : Outputs) : Prop :=
  o.cycleCost = c.cost o.timingClass ∧
  (o.status = .branchNotTaken → o.timingClass = .branch ∧ o.pcSel = .default) ∧
  (o.status = .halt ↔ o.timingClass = .halt) ∧
  (o.status = .halt → o.pcSel = .default)

/-- The invariant every step keeps: the parameters are legal, memory is in its canonical form and lists no element
outside Mem[0 .. MEM_WORDS - 1] (R38), the outputs are consistent, and a run that has ended as halted ended on a HALT
(R225). -/
abbrev State.Inv (s : State) : Prop :=
  s.params.wf ∧ Memory.wf s.mem ∧ (∀ c ∈ s.mem, c.1 < s.params.memWords) ∧
  (∀ o ∈ s.out, o.consistent s.params.costs) ∧
  (s.run = .halted → ∃ o ∈ s.out, o.status = .halt)

/-- How a run that is watched for a number of steps stands (R225). -/
inductive RunEnd where
  /-- The only successful end: a HALT completed; the state has the HALT's address in `pc`. -/
  | halted (s : State)
  /-- A step ended in an error; the state is that before the failing instruction. -/
  | faulted (f : Fault) (s : State)
  /-- A step was refused (no instruction of this model is). -/
  | refused (r : Refusal) (s : State)
  /-- The steps were used up and the run goes on. -/
  | unfinished (s : State)
deriving DecidableEq, Repr

/-- The run from `s`, watched for at most `n` driver steps. -/
def runEnd : Nat → State → RunEnd
  | 0, s => match s.run with
    | .halted  => .halted s
    | .running => .unfinished s
  | n + 1, s => match s.run with
    | .halted  => .halted s
    | .running => match step s with
      | .next t    => runEnd n t
      | .fault f   => .faulted f s
      | .refused r => .refused r s

/-- The run from `s` never ends (R225: "A run that does neither is non-terminating"). -/
def NonTerminating (s : State) : Prop := ∀ n, ∃ t, runEnd n s = .unfinished t

end Machine

end Sys2Proof
end

