-- ==== Sys2Proof/Certificates/Slice0/Obligations.lean ====
section
/-! DEFINITION. The statements for the provers. Each docstring names the rule of spec/ it formalises, or the decision or log
entry it rests on.

`s` is any state: any registers, any memory, any PC, any legal or illegal parameters, unless a hypothesis says otherwise.
Numerals are never assumed: a statement about decoding holds for every key table that meets R72. -/

open Sys2Proof Sys2Proof.Machine

/-! ### Encoding -/

/-- Decode and encode agree, for every well-formed instruction, every operand value and every key table of R72
(R61 to R63, R75, R76). -/
def Obligations.DecodeOfEncodeIsTheInstruction : Prop :=
  ∀ (k : KeyTable), k.wf → ∀ (i : Instr), i.wf → decode k (encode k i) = .ok i

/-- The other direction: a word that decodes is the encoding of what it decodes to, so no bit of a legal word is lost, and
only well-formed instructions are decoded (R64, R75, R76). That an unknown nonzero opcode decodes to nothing is the spec's
decision D4 (log 18). -/
def Obligations.EncodeOfDecodeIsTheWord : Prop :=
  ∀ (k : KeyTable), k.wf → ∀ (w : Word) (i : Instr), decode k w = .ok i → encode k i = w ∧ i.wf

/-- The decoder's step order (R75). The clause that an unknown nonzero opcode is not looked up by function code is the
spec's decision D4 (log 18), that no operation is looked up beside the 23 its decision D3 (log 29), and that the error carries
the word its decision D17 (log 27). -/
def Obligations.DecodeFollowsTheStepOrder : Prop :=
  ∀ (k : KeyTable), k.wf → ∀ (w : Word),
    (decodeOp k w = some .nop ↔ w = 0) ∧
    (∀ op, op ≠ .nop → (decodeOp k w = some op ↔ w ≠ 0 ∧
      (op.family ≠ .register ∧ opcodeField w ≠ 0 ∧ k.key op = some (opcodeField w) ∨
       op.family = .register ∧ opcodeField w = 0 ∧ k.key op = some (functField w)))) ∧
    (∀ i, decode k w = .ok i ↔ ∃ op, decodeOp k w = some op ∧ i = .ofOp op w) ∧
    (∀ v, decode k w = .decodeError v ↔ decodeOp k w = none ∧ v = w)

/-- R76: with opcode and function code zero the all-zero word is NOP and every other word is SLL; NOP is reached by no other
word; the two readings of the zero word would differ in nothing but the registry identity and the timing class. -/
def Obligations.OnlyTheZeroWordIsNop : Prop :=
  (∀ (k : KeyTable), k.wf → ∀ (w : Word), decode k w = .ok .nop → w = 0) ∧
  (∀ (k : KeyTable), k.wf → ∀ (w : Word), opcodeField w = 0 → functField w = 0 →
    (w = 0 → decode k w = .ok .nop) ∧
    (w ≠ 0 → decode k w = .ok (.sll (rsField w) (rtField w) (rdField w) (shamtField w)))) ∧
  ∀ (s : State), ∃ o o', exec .nop s = .next { s with out := some o } ∧
    exec (.sll 0 0 0 0) s = .next { s with out := some o' } ∧ o'.pcSel = o.pcSel ∧ o'.status = o.status

/-- The illegal words under the default numerals, as R78 lists them. The numerals are general knowledge (D1, D2; log 7, 8). The
first list, an unknown nonzero opcode whatever the low bits, is the spec's decision D4 (log 18); that no further word is legal,
the set of 23 operations being closed, is its decision D3 (log 29), and that the error carries the word its decision D17
(log 27). -/
def Obligations.IllegalWordsOfTheDefaultTable : Prop :=
  ∀ (w : Word), decode .mips w = .decodeError w ↔
    (opcodeField w ∉ [0x00, 0x02, 0x03, 0x04, 0x05, 0x08, 0x09, 0x0B, 0x0D, 0x0F, 0x23, 0x2B]) ∨
    (opcodeField w = 0 ∧ w ≠ 0 ∧
      functField w ∉ [0x00, 0x02, 0x03, 0x08, 0x0C, 0x20, 0x21, 0x22, 0x24, 0x25, 0x2B])

/-- The decoder and the mask and match columns of spec/opcode_table.json agree on all words (R77): an operation is selected by
the bits of its mask alone, the NOP row being tested first. The numerals are general knowledge (D1, D2; log 7, 8). That a
REGISTER row asks for opcode zero is the spec's decision D4, its resolution of conflict C2 (log 18), and that the table has no
further row its decision D3 (log 29). -/
def Obligations.DecoderAgreesWithTheOpcodeTable : Prop :=
  ∀ (w : Word) (op : Op), decodeOp .mips w = some op ↔ op.inRow w ∧ (w = 0 → op = .nop)

/-- Words of the spec's decode examples and vectors (30_encoding.md section 5; 95_test_vectors.md), one of each family of
rules. The numerals are general knowledge (D1, D2; log 7, 8). The last word, an unknown nonzero opcode over ADD's function
code, is a DecodeError by the spec's decisions D3, D4 (log 29, 18), and carries the word by D17 (log 27). -/
def Obligations.DecodesTheSpecsWords : Prop :=
  decode .mips 0x00411020 = .ok (.add 2 1 2 0) ∧ decode .mips 0x03E21900 = .ok (.sll 31 2 3 4) ∧
  decode .mips 0x34228001 = .ok (.ori 1 2 0x8001) ∧ decode .mips 0x8C820001 = .ok (.lw 4 2 1) ∧
  decode .mips 0x1420FFF8 = .ok (.bne 1 0 0xFFF8) ∧ decode .mips 0x0A000001 = .ok (.j 0x2000001) ∧
  decode .mips 0x03E00008 = .ok (.jr 31 0 0 0) ∧ decode .mips 0x03FFFFCC = .ok (.halt 31 31 31 31) ∧
  decode .mips 0x04000020 = .decodeError 0x04000020

/-- R65, R66: sign extension is OR-ing the high bits with all-ones when the field's top bit is set. -/
def Obligations.SignExtensionOrsTheHighBits : Prop :=
  (∀ v : BitVec 16, sext16 v = if v.getLsbD 15 then 0xFFFF0000 ||| zext16 v else zext16 v) ∧
  (∀ v : BitVec 26, sext26 v = if v.getLsbD 25 then 0xFC000000 ||| v.zeroExtend 32 else v.zeroExtend 32)

/-! ### Register-format arithmetic and logic -/

/-- R100, whole: encoding, effect, no exception, everything else unchanged, whatever `shamt` is. -/
def Obligations.AndWritesTheBitwiseAnd : Prop :=
  (∀ (k : KeyTable) (w : Word), k.wf → opcodeField w = 0 → functField w = k.and →
    decode k w = .ok (.and (rsField w) (rtField w) (rdField w) (shamtField w))) ∧
  ∀ (rs rt rd : RegIndex) (shamt : BitVec 5) (s : State), ∃ o, exec (.and rs rt rd shamt) s =
      .next { s with regs := s.regs.set rd (s.reg rs &&& s.reg rt), out := some o } ∧
    o.pcSel = .default ∧ o.status = .normal

/-- R101, whole. -/
def Obligations.OrWritesTheBitwiseOr : Prop :=
  (∀ (k : KeyTable) (w : Word), k.wf → opcodeField w = 0 → functField w = k.or →
    decode k w = .ok (.or (rsField w) (rtField w) (rdField w) (shamtField w))) ∧
  ∀ (rs rt rd : RegIndex) (shamt : BitVec 5) (s : State), ∃ o, exec (.or rs rt rd shamt) s =
      .next { s with regs := s.regs.set rd (s.reg rs ||| s.reg rt), out := some o } ∧
    o.pcSel = .default ∧ o.status = .normal

/-- R102, whole: the sum modulo 2^32, with no trap on any operands. -/
def Obligations.AddWritesTheWrappedSum : Prop :=
  (∀ (k : KeyTable) (w : Word), k.wf → opcodeField w = 0 → functField w = k.add →
    decode k w = .ok (.add (rsField w) (rtField w) (rdField w) (shamtField w))) ∧
  ∀ (rs rt rd : RegIndex) (shamt : BitVec 5) (s : State), ∃ o, exec (.add rs rt rd shamt) s =
      .next { s with regs := s.regs.set rd (BitVec.ofNat 32 ((s.reg rs).toNat + (s.reg rt).toNat)), out := some o } ∧
    o.pcSel = .default ∧ o.status = .normal

/-- R103. The operand order `x[rs] - x[rt]` is the spec's reading (N5, G5; log 15). -/
def Obligations.SubWritesTheWrappedDifference : Prop :=
  (∀ (k : KeyTable) (w : Word), k.wf → opcodeField w = 0 → functField w = k.sub →
    decode k w = .ok (.sub (rsField w) (rtField w) (rdField w) (shamtField w))) ∧
  ∀ (rs rt rd : RegIndex) (shamt : BitVec 5) (s : State), ∃ o, exec (.sub rs rt rd shamt) s =
      .next { s with regs := s.regs.set rd (BitVec.ofInt 32 ((s.reg rs).toInt - (s.reg rt).toInt)), out := some o } ∧
    o.pcSel = .default ∧ o.status = .normal

/-- R104: ADDU completes and changes nothing. The timing class REGISTER is the spec's decision D15 (log 21). -/
def Obligations.AdduChangesNothing : Prop :=
  (∀ (k : KeyTable) (w : Word), k.wf → opcodeField w = 0 → functField w = k.addu →
    decode k w = .ok (.addu (rsField w) (rtField w) (rdField w) (shamtField w))) ∧
  ∀ (rs rt rd : RegIndex) (shamt : BitVec 5) (s : State), ∃ o, exec (.addu rs rt rd shamt) s =
      .next { s with out := some o } ∧
    o.pcSel = .default ∧ o.status = .normal ∧ o.timingClass = .register

/-- R105, whole: 1 when `x[rs]` is below `x[rt]` as unsigned numbers, else 0. -/
def Obligations.SltuWritesTheUnsignedComparison : Prop :=
  (∀ (k : KeyTable) (w : Word), k.wf → opcodeField w = 0 → functField w = k.sltu →
    decode k w = .ok (.sltu (rsField w) (rtField w) (rdField w) (shamtField w))) ∧
  ∀ (rs rt rd : RegIndex) (shamt : BitVec 5) (s : State), ∃ o, exec (.sltu rs rt rd shamt) s =
      .next { s with regs := s.regs.set rd (if s.reg rs < s.reg rt then 1 else 0), out := some o } ∧
    o.pcSel = .default ∧ o.status = .normal

/-! ### Shifts -/

/-- R110, whole: the low `32 - shamt` bits of `x[rt]` moved up, zeros below; `rs` ignored. -/
def Obligations.SllShiftsLeftWithZeros : Prop :=
  (∀ (k : KeyTable) (w : Word), k.wf → opcodeField w = 0 → functField w = k.sll → w ≠ 0 →
    decode k w = .ok (.sll (rsField w) (rtField w) (rdField w) (shamtField w))) ∧
  ∀ (rs rt rd : RegIndex) (shamt : BitVec 5) (s : State), ∃ v o, exec (.sll rs rt rd shamt) s =
      .next { s with regs := s.regs.set rd v, out := some o } ∧
    (∀ b, b < 32 → v.getLsbD b = (decide (shamt.toNat ≤ b) && (s.reg rt).getLsbD (b - shamt.toNat))) ∧
    o.pcSel = .default ∧ o.status = .normal

/-- R111: the top `shamt` bits of the result are 0 and the low `32 - shamt` bits are `x[rt][31:shamt]`. That a count of 0
copies is the spec's decision D23 (log 16). -/
def Obligations.SrlShiftsRightWithZeros : Prop :=
  (∀ (k : KeyTable) (w : Word), k.wf → opcodeField w = 0 → functField w = k.srl →
    decode k w = .ok (.srl (rsField w) (rtField w) (rdField w) (shamtField w))) ∧
  ∀ (rs rt rd : RegIndex) (shamt : BitVec 5) (s : State), ∃ v o, exec (.srl rs rt rd shamt) s =
      .next { s with regs := s.regs.set rd v, out := some o } ∧
    (∀ b, b < 32 → v.getLsbD b = (decide (b + shamt.toNat < 32) && (s.reg rt).getLsbD (b + shamt.toNat))) ∧
    o.pcSel = .default ∧ o.status = .normal

/-- R112: copies of bit 31 enter at bit 31; as a signed number the result is the operand divided by `2^shamt`, rounded toward
minus infinity. The division clause is the spec's own inference, marked so in R112. -/
def Obligations.SraShiftsRightWithTheSign : Prop :=
  (∀ (k : KeyTable) (w : Word), k.wf → opcodeField w = 0 → functField w = k.sra →
    decode k w = .ok (.sra (rsField w) (rtField w) (rdField w) (shamtField w))) ∧
  ∀ (rs rt rd : RegIndex) (shamt : BitVec 5) (s : State), ∃ v o, exec (.sra rs rt rd shamt) s =
      .next { s with regs := s.regs.set rd v, out := some o } ∧
    (∀ b, b < 32 → v.getLsbD b =
      if b + shamt.toNat < 32 then (s.reg rt).getLsbD (b + shamt.toNat) else (s.reg rt).getLsbD 31) ∧
    v.toInt = (s.reg rt).toInt / 2 ^ shamt.toNat ∧
    o.pcSel = .default ∧ o.status = .normal

/-! ### Immediate-format arithmetic and logic -/

/-- R120, whole: the immediate is zero-extended. -/
def Obligations.OriWritesTheOrWithTheRawImmediate : Prop :=
  (∀ (k : KeyTable) (w : Word), k.wf → opcodeField w = k.ori →
    decode k w = .ok (.ori (rsField w) (rtField w) (imm16Field w))) ∧
  ∀ (rs rt : RegIndex) (imm : BitVec 16) (s : State), ∃ o, exec (.ori rs rt imm) s =
      .next { s with regs := s.regs.set rt (s.reg rs ||| (0#16 ++ imm)), out := some o } ∧
    o.pcSel = .default ∧ o.status = .normal

/-- R121, whole: the immediate is sign-extended, the sum wraps, nothing traps. -/
def Obligations.AddiAddsTheSignExtendedImmediate : Prop :=
  (∀ (k : KeyTable) (w : Word), k.wf → opcodeField w = k.addi →
    decode k w = .ok (.addi (rsField w) (rtField w) (imm16Field w))) ∧
  ∀ (rs rt : RegIndex) (imm : BitVec 16) (s : State), ∃ o, exec (.addi rs rt imm) s =
      .next { s with regs := s.regs.set rt (BitVec.ofInt 32 ((s.reg rs).toInt + imm.toInt)), out := some o } ∧
    o.pcSel = .default ∧ o.status = .normal

/-- R122, whole: the same value as ADDI writes, for every register and immediate. -/
def Obligations.AddiuWritesWhatAddiWrites : Prop :=
  (∀ (k : KeyTable) (w : Word), k.wf → opcodeField w = k.addiu →
    decode k w = .ok (.addiu (rsField w) (rtField w) (imm16Field w))) ∧
  ∀ (rs rt : RegIndex) (imm : BitVec 16) (s : State), ∃ v o o',
    exec (.addiu rs rt imm) s = .next { s with regs := s.regs.set rt v, out := some o } ∧
    exec (.addi rs rt imm) s = .next { s with regs := s.regs.set rt v, out := some o' } ∧
    v = BitVec.ofInt 32 ((s.reg rs).toInt + imm.toInt) ∧ o.pcSel = .default ∧ o.status = .normal

/-- R123: the right-hand side is the immediate as an unsigned number, at most 0xFFFF. The destination `rt` is the spec's
decision D5 (log 16). -/
def Obligations.SltiuComparesWithTheRawImmediate : Prop :=
  (∀ (k : KeyTable) (w : Word), k.wf → opcodeField w = k.sltiu →
    decode k w = .ok (.sltiu (rsField w) (rtField w) (imm16Field w))) ∧
  ∀ (rs rt : RegIndex) (imm : BitVec 16) (s : State), ∃ o, exec (.sltiu rs rt imm) s =
      .next { s with regs := s.regs.set rt (if (s.reg rs).toNat < imm.toNat then 1 else 0), out := some o } ∧
    o.pcSel = .default ∧ o.status = .normal

/-- R124, whole: the immediate in the upper half, the lower half 0; `rs` ignored. -/
def Obligations.LuiLoadsTheUpperHalf : Prop :=
  (∀ (k : KeyTable) (w : Word), k.wf → opcodeField w = k.lui →
    decode k w = .ok (.lui (rsField w) (rtField w) (imm16Field w))) ∧
  ∀ (rs rt : RegIndex) (imm : BitVec 16) (s : State), ∃ o, exec (.lui rs rt imm) s =
      .next { s with regs := s.regs.set rt (imm.zeroExtend 32 <<< 16), out := some o } ∧
    o.pcSel = .default ∧ o.status = .normal

/-! ### Load and store -/

/-- R130 inside Memory: `x[rt]` becomes the element at the word index `x[rs] + zext_32(imm16)`, nothing else changes. The
signed reading of the index is the spec's decision D8 (log 17). -/
def Obligations.LwLoadsTheIndexedWord : Prop :=
  (∀ (k : KeyTable) (w : Word), k.wf → opcodeField w = k.lw →
    decode k w = .ok (.lw (rsField w) (rtField w) (imm16Field w))) ∧
  ∀ (rs rt : RegIndex) (imm : BitVec 16) (s : State) (idx : Word), idx = s.reg rs + zext16 imm →
    0 ≤ idx.toInt → idx.toInt < s.params.memWords →
    ∃ o, exec (.lw rs rt imm) s =
        .next { s with regs := s.regs.set rt (s.mem.read idx.toNat), out := some o } ∧
      o.pcSel = .default ∧ o.status = .normal

/-- R131 inside Memory, with its frame: the element at the index becomes `x[rt]`, every other element reads as before, and
nothing else changes. The hypothesis on memory is the invariant of StepKeepsTheInvariant. The signed reading of the index is
the spec's decision D8 (log 17). -/
def Obligations.SwStoresTheIndexedWord : Prop :=
  (∀ (k : KeyTable) (w : Word), k.wf → opcodeField w = k.sw →
    decode k w = .ok (.sw (rsField w) (rtField w) (imm16Field w))) ∧
  ∀ (rs rt : RegIndex) (imm : BitVec 16) (s : State) (idx : Word), Memory.wf s.mem → idx = s.reg rs + zext16 imm →
    0 ≤ idx.toInt → idx.toInt < s.params.memWords →
    ∃ m o, exec (.sw rs rt imm) s = .next { s with mem := m, out := some o } ∧
      (∀ a, Memory.read m a = if a = idx.toNat then s.reg rt else s.mem.read a) ∧
      o.pcSel = .default ∧ o.status = .normal

/-- R130, R131 outside Memory: LW and SW end in `ExecutionFault(MemIndex, idx)`, which carries the index and no new state.
The fault is the spec's decision D7, what it carries its decision D17 (log 17, 27). -/
def Obligations.AccessOutsideMemoryFaults : Prop :=
  ∀ (rs rt : RegIndex) (imm : BitVec 16) (s : State) (idx : Word), idx = s.reg rs + zext16 imm →
    (idx.toInt < 0 ∨ (s.params.memWords : Int) ≤ idx.toInt) →
    exec (.lw rs rt imm) s = .fault (.memIndex idx) ∧ exec (.sw rs rt imm) s = .fault (.memIndex idx)

/-- R132: the index is `(u(x[rs]) + u(imm16)) mod 2^32`; it is legal when `0 <= s(idx) < MEM_WORDS`, which is
`u(idx) < MEM_WORDS` whenever MEM_WORDS is at most 2^31. The signed reading is the spec's decision D8 (log 17). -/
def Obligations.IndexIsLegalInsideMemoryOnly : Prop :=
  ∀ (s : State) (rs : RegIndex) (imm : BitVec 16),
    (s.effectiveIndex rs imm).toNat = ((s.reg rs).toNat + imm.toNat) % 2 ^ 32 ∧
    ∀ (idx : Word) (a : Nat),
      (s.element idx = some a ↔ 0 ≤ idx.toInt ∧ idx.toInt < s.params.memWords ∧ a = idx.toNat) ∧
      (s.params.memWords ≤ 2 ^ 31 → (s.element idx = some a ↔ idx.toNat < s.params.memWords ∧ a = idx.toNat))

/-- R43, R44: a write inside Memory is read back and changes no other element; outside, both raise and nothing is written.
The fault is the spec's decision D7 (log 17). -/
def Obligations.WriteThenReadOfMemory : Prop :=
  ∀ (s : State) (idx : Word) (v : Word), Memory.wf s.mem →
    (∀ a, s.element idx = some a → ∃ t, s.memWrite idx v = .ok t ∧ t.memRead idx = .ok v ∧
      ∀ j, j ≠ idx → t.memRead j = s.memRead j) ∧
    (s.element idx = none → s.memWrite idx v = .error (.memIndex idx) ∧ s.memRead idx = .error (.memIndex idx))

/-! ### Branches, jumps, NOP and HALT -/

/-- R140: equal registers redirect to `pc + zext_32(imm16)`, unequal ones give the default advance and BRANCH_NOT_TAKEN; no
register and no memory changes. NORMAL for a taken branch is the spec's decision D24, and that the PC sum wraps modulo 2^32
is its decision D19 (log 23). -/
def Obligations.BeqBranchesByTheRawOffset : Prop :=
  (∀ (k : KeyTable) (w : Word), k.wf → opcodeField w = k.beq →
    decode k w = .ok (.beq (rsField w) (rtField w) (imm16Field w))) ∧
  ∀ (rs rt : RegIndex) (imm : BitVec 16) (s : State), ∃ o, exec (.beq rs rt imm) s = .next { s with out := some o } ∧
    (s.reg rs = s.reg rt → o.pcSel = .redirect (s.pcIn + (0#16 ++ imm)) ∧ o.status = .normal) ∧
    (s.reg rs ≠ s.reg rt → o.pcSel = .default ∧ o.status = .branchNotTaken)

/-- R141: unequal registers redirect to `pc + sext_32(imm16)`, equal ones give the default advance and BRANCH_NOT_TAKEN.
NORMAL for a taken branch is the spec's decision D24, and that the PC sum wraps modulo 2^32 is its decision D19 (log 23). -/
def Obligations.BneBranchesByTheSignedOffset : Prop :=
  (∀ (k : KeyTable) (w : Word), k.wf → opcodeField w = k.bne →
    decode k w = .ok (.bne (rsField w) (rtField w) (imm16Field w))) ∧
  ∀ (rs rt : RegIndex) (imm : BitVec 16) (s : State), ∃ o, exec (.bne rs rt imm) s = .next { s with out := some o } ∧
    (s.reg rs ≠ s.reg rt →
      o.pcSel = .redirect (BitVec.ofInt 32 (s.pcIn.toInt + imm.toInt)) ∧ o.status = .normal) ∧
    (s.reg rs = s.reg rt → o.pcSel = .default ∧ o.status = .branchNotTaken)

/-- R150, whole: the sign-extended field is the whole new PC; no base is added and nothing else changes. -/
def Obligations.JJumpsToTheSignedField : Prop :=
  (∀ (k : KeyTable) (w : Word), k.wf → opcodeField w = k.j → decode k w = .ok (.j (tgt26Field w))) ∧
  ∀ (tgt : BitVec 26) (s : State), ∃ o, exec (.j tgt) s = .next { s with out := some o } ∧
    o.pcSel = .redirect (BitVec.ofInt 32 tgt.toInt)

/-- R151: `x[31]` receives the PC as handed in, and the new PC is PROGRAM_BASE plus the sign-extended field. That this sum wraps
modulo 2^32 is the spec's decision D19 (log 23). -/
def Obligations.JalLinksAndJumpsFromTheBase : Prop :=
  (∀ (k : KeyTable) (w : Word), k.wf → opcodeField w = k.jal → decode k w = .ok (.jal (tgt26Field w))) ∧
  ∀ (tgt : BitVec 26) (s : State), ∃ o, exec (.jal tgt) s =
      .next { s with regs := s.regs.set 31 s.pcIn, out := some o } ∧
    o.pcSel = .redirect (s.params.programBase + BitVec.ofInt 32 tgt.toInt)

/-- R152: JR redirects to `x[rs]`, all 32 bits, whatever its other fields hold. The timing class JUMP is the spec's decision
D15 (log 21). -/
def Obligations.JrJumpsToTheRegister : Prop :=
  (∀ (k : KeyTable) (w : Word), k.wf → opcodeField w = 0 → functField w = k.jr →
    decode k w = .ok (.jr (rsField w) (rtField w) (rdField w) (shamtField w))) ∧
  ∀ (rs rt rd : RegIndex) (shamt : BitVec 5) (s : State), ∃ o, exec (.jr rs rt rd shamt) s =
      .next { s with out := some o } ∧
    o.pcSel = .redirect (s.reg rs) ∧ o.timingClass = .jump

/-- R160: only the zero word is NOP, and it changes nothing. The timing class NOP is the spec's decision D15 (log 21). -/
def Obligations.NopChangesNothing : Prop :=
  (∀ (k : KeyTable), k.wf → ∀ (w : Word), decode k w = .ok .nop ↔ w = 0) ∧
  ∀ (s : State), ∃ o, exec .nop s = .next { s with out := some o } ∧
    o.pcSel = .default ∧ o.status = .normal ∧ o.timingClass = .nop

/-- R161, R192: HALT completes with status HALT, consults no register and changes nothing, whatever its fields hold. Its
place in the function code space is the spec's decision D2 (log 8), the default PC output its decision D18 (log 23), the
timing class HALT its decision D15 (log 21). -/
def Obligations.HaltSignalsAndChangesNothing : Prop :=
  (∀ (k : KeyTable) (w : Word), k.wf → opcodeField w = 0 → functField w = k.halt →
    decode k w = .ok (.halt (rsField w) (rtField w) (rdField w) (shamtField w))) ∧
  ∀ (rs rt rd : RegIndex) (shamt : BitVec 5) (s : State), ∃ o, exec (.halt rs rt rd shamt) s =
      .next { s with out := some o } ∧
    o.pcSel = .default ∧ o.status = .halt ∧ o.timingClass = .halt

/-! ### Whole-machine rules over all instructions -/

/-- R22: all 32 registers, register 0 among them, hold what is written to them. -/
def Obligations.EveryRegisterIsOrdinary : Prop :=
  ∀ (s : State) (i r : RegIndex) (v : Word), (s.writeReg i v).reg r = if r = i then v else s.reg r

/-- The frame of every completed instruction (R25, R26, R38): no register but the one of the "writes" column changes, no
element of Memory but SW's changes, and the core moves neither the driver's PC nor its total, nor the parameters. That SLTIU
writes `rt` is the spec's decision D5 (log 16). -/
def Obligations.InstructionsKeepTheirFrame : Prop :=
  ∀ (i : Instr) (s t : State), exec i s = .next t →
    (∀ r, i.writes ≠ some r → t.reg r = s.reg r) ∧
    ((∀ rs rt imm, i ≠ .sw rs rt imm) → t.mem = s.mem) ∧
    t.pc = s.pc ∧ t.cycles = s.cycles ∧ t.run = s.run ∧ t.params = s.params

/-- The "reads" column of R25: an instruction's outcome depends on no other register. Two states that agree on those give
the same fault, or the same outputs, memory and written register. That SLTIU writes `rt` is the spec's decision D5 (log 16). -/
def Obligations.OnlyTheListedRegistersAreRead : Prop :=
  ∀ (i : Instr) (s : State) (regs : Vector Word 32),
    (∀ r ∈ i.reads, regs[r] = s.reg r) →
    (∀ f, exec i s = .fault f → exec i { s with regs := regs } = .fault f) ∧
    (∀ t, exec i s = .next t → ∃ u, exec i { s with regs := regs } = .next u ∧ u.out = t.out ∧ u.mem = t.mem ∧
      ∀ r, i.writes = some r → u.reg r = t.reg r)

/-- R38: only LW reads Memory and only SW writes it. -/
def Obligations.OnlyLoadsReadAndOnlyStoresWriteMemory : Prop :=
  ∀ (i : Instr) (s t : State), exec i s = .next t →
    ((∀ rs rt imm, i ≠ .sw rs rt imm) → ∀ a, t.mem.read a = s.mem.read a) ∧
    ((∀ rs rt imm, i ≠ .lw rs rt imm) → ∀ m, ∃ u, exec i { s with mem := m } = .next u ∧
      u.regs = t.regs ∧ u.out = t.out)

/-- R29: "Exactly three operations read it": for all but BEQ, BNE and JAL the PC makes no difference. -/
def Obligations.OnlyBranchesAndJalReadThePc : Prop :=
  ∀ (i : Instr) (s : State) (p : Word),
    (∀ rs rt imm, i ≠ .beq rs rt imm) → (∀ rs rt imm, i ≠ .bne rs rt imm) → (∀ tgt, i ≠ .jal tgt) →
    (∀ t, exec i s = .next t → exec i { s with pc := p } = .next { t with pc := p }) ∧
    (∀ f, exec i s = .fault f → exec i { s with pc := p } = .fault f)

/-- R31, the complete table of `pc_sel` and `pc_out`. The default PC output of HALT is the spec's decision D18, and that the PC
sums wrap modulo 2^32 is its decision D19 (log 23). -/
def Obligations.NextPcTable : Prop :=
  ∀ (i : Instr) (s t : State), exec i s = .next t → ∃ o, t.out = some o ∧ o.pcSel =
    match i with
    | .beq rs rt imm => if s.reg rs = s.reg rt then .redirect (s.pcIn + zext16 imm) else .default
    | .bne rs rt imm => if s.reg rs ≠ s.reg rt then .redirect (s.pcIn + sext16 imm) else .default
    | .j tgt         => .redirect (sext26 tgt)
    | .jal tgt       => .redirect (s.params.programBase + sext26 tgt)
    | .jr rs _ _ _   => .redirect (s.reg rs)
    | _              => .default

/-- R195: HALT for HALT, BRANCH_NOT_TAKEN for a BEQ or BNE whose condition is false, NORMAL for everything else. NORMAL for
taken branches and jumps is the spec's decision D24 (log 23). -/
def Obligations.StatusTable : Prop :=
  ∀ (i : Instr) (s t : State), exec i s = .next t → ∃ o, t.out = some o ∧
    (o.status = .halt ↔ ∃ rs rt rd shamt, i = .halt rs rt rd shamt) ∧
    (o.status = .branchNotTaken ↔ ∃ rs rt imm,
      i = .beq rs rt imm ∧ s.reg rs ≠ s.reg rt ∨ i = .bne rs rt imm ∧ s.reg rs = s.reg rt)

/-- R181 with R180: a completed instruction costs the constant of its class, whatever its operands. The class of each
operation is the spec's decision D15 (log 21). -/
def Obligations.CostFollowsTheTimingClass : Prop :=
  ∀ (i : Instr) (s t : State), exec i s = .next t → ∃ o, t.out = some o ∧ (o.timingClass, o.cycleCost) =
    match i with
    | .lw _ _ _     => (.load, s.params.costs.load)
    | .sw _ _ _     => (.store, s.params.costs.store)
    | .beq _ _ _    => (.branch, s.params.costs.branch)
    | .bne _ _ _    => (.branch, s.params.costs.branch)
    | .j _          => (.jump, s.params.costs.jump)
    | .jal _        => (.jump, s.params.costs.jump)
    | .jr _ _ _ _   => (.jump, s.params.costs.jump)
    | .nop          => (.nop, s.params.costs.nop)
    | .halt _ _ _ _ => (.halt, s.params.costs.halt)
    | _             => (.register, s.params.costs.register)

/-- R190, R193, R194: the core completes every instruction but a load or store outside Memory, whose error is MemIndex; it
refuses none, and neither does a step. That an access outside Memory ends in MemIndex with the index is the spec's
decision D7, D17 (log 17, 27). -/
def Obligations.OnlyLoadsAndStoresCanFail : Prop :=
  (∀ (i : Instr) (s : State), (∃ t, exec i s = .next t) ∨
    ∃ rs rt imm, (i = .lw rs rt imm ∨ i = .sw rs rt imm) ∧ s.element (s.effectiveIndex rs imm) = none ∧
      exec i s = .fault (.memIndex (s.effectiveIndex rs imm))) ∧
  ∀ (s : State) (r : Refusal), step s ≠ .refused r

/-- R106: sums and differences are modulo 2^32 under both readings of the operands, so signed overflow wraps. In the SUB clauses
the operand order `x[rs] - x[rt]` is the spec's reading (N5, G5; log 15). -/
def Obligations.ArithmeticWrapsUnderBothReadings : Prop :=
  ∀ (s : State) (rs rt rd : RegIndex) (shamt : BitVec 5) (imm : BitVec 16),
    ∃ t u v, exec (.add rs rt rd shamt) s = .next t ∧ exec (.sub rs rt rd shamt) s = .next u ∧
      exec (.addi rs rt imm) s = .next v ∧
      (t.reg rd).toNat = ((s.reg rs).toNat + (s.reg rt).toNat) % 2 ^ 32 ∧
      (t.reg rd).toInt = ((s.reg rs).toInt + (s.reg rt).toInt).bmod (2 ^ 32) ∧
      (u.reg rd).toNat = ((s.reg rs).toNat + (2 ^ 32 - (s.reg rt).toNat)) % 2 ^ 32 ∧
      (u.reg rd).toInt = ((s.reg rs).toInt - (s.reg rt).toInt).bmod (2 ^ 32) ∧
      (v.reg rt).toInt = ((s.reg rs).toInt + imm.toInt).bmod (2 ^ 32)

/-- R227 item 7: after a JAL, a JR on the link register goes back to the JAL itself when the driver hands in the
instruction's own address, which is the spec's decision D11 (log 11). -/
def Obligations.JrAfterJalReturnsToTheJal : Prop :=
  ∀ (tgt : BitVec 26) (rt rd : RegIndex) (shamt : BitVec 5) (s : State), s.params.pcInOffset = .zero →
    ∃ t u o, exec (.jal tgt) s = .next t ∧ exec (.jr 31 rt rd shamt) t = .next u ∧ u.out = some o ∧
      o.pcSel = .redirect s.pc

/-! ### The datapath -/

/-- R173: the datapath driven by the control word of an operation agrees with the instruction's rule, for every operation,
word and state, and whatever the signals of a dash carry. The control words are the spec's decision D21 (log 28), the
equivalence its own inference, and the arbitrary word of a dash the model's choice (log 22). -/
def Obligations.DatapathMatchesTheInstructionRules : Prop :=
  ∀ (dc w : Word) (op : Op) (s : State), commit s (opPorts dc op w s) = exec (.ofOp op w) s

/-- R39: decoder and datapath together are the core's Step, and the ports are those of a block with one register write, one
memory access, and no outputs on an error (R48, R191, R197). The ports are the spec's decision D10 (log 28), that an error has
no outputs and no write its decision D17 (log 27), the control words behind the ports its decision D21 (log 28), and the
arbitrary word of a dash the model's choice (log 22). -/
def Obligations.PortsMatchTheCoreStep : Prop :=
  ∀ (dc w : Word) (s : State), commit s (corePorts dc w s) = coreStep w s ∧
    ((corePorts dc w s).error ≠ .none → (corePorts dc w s).regWrite = none ∧ (corePorts dc w s).memWrite = none ∧
      (corePorts dc w s).outputs = none) ∧
    ((corePorts dc w s).memRead = none ∨ (corePorts dc w s).memWrite = none) ∧
    ((corePorts dc w s).op = none ↔ (corePorts dc w s).error = .decodeError w)

/-! ### The step and the run -/

/-- A step runs the decoded instruction (R224): the word the PC maps to is decoded, `exec` runs it at that state, and the
driver books the cost and moves the PC, or ends the run on HALT with the PC unchanged. The driver is the spec's decision D11,
D12 (log 10); the PC at a HALT is its decision D18, and that the advance by 4 wraps its decision D19 (log 23). -/
def Obligations.StepRunsTheDecodedInstruction : Prop :=
  ∀ (s : State) (a : Nat) (i : Instr), s.run = .running → s.fetchElement s.pc = some a →
    decode s.params.keys (s.mem.read a) = .ok i →
    (∀ f, exec i s = .fault f → step s = .fault f) ∧
    (∀ t, exec i s = .next t → ∃ o, t.out = some o ∧
      (o.status = .halt → step s =
        .next { t with cycles := s.cycles + o.cycleCost.toNat, run := .halted }) ∧
      (o.status = .normal → ∀ p, o.pcSel = .redirect p → step s =
        .next { t with cycles := s.cycles + o.cycleCost.toNat, pc := p }) ∧
      (o.status = .normal → o.pcSel = .default → step s =
        .next { t with cycles := s.cycles + o.cycleCost.toNat, pc := s.pc + 4 }) ∧
      (o.status = .branchNotTaken → step s =
        .next { t with cycles := s.cycles + s.params.costs.branchNotTaken.toNat, pc := s.pc + 4 }))

/-- R223: what the PC maps to. A misaligned, negative or too large offset from PROGRAM_BASE is a fetch fault whatever memory
holds; otherwise the word is `Mem[s(off) / 4]`. The mapping is the spec's decision D12 (log 10). -/
def Obligations.FetchMapsThePcToAnElement : Prop :=
  ∀ (s : State) (off : Word), off = s.pc - s.params.programBase →
    ((off.toNat % 4 ≠ 0 ∨ off.toInt < 0 ∨ (s.params.memWords : Int) ≤ off.toInt / 4) →
      s.fetch = .error (.fetch s.pc) ∧ (s.run = .running → step s = .fault (.fetch s.pc))) ∧
    (off.toNat % 4 = 0 → 0 ≤ off.toInt → off.toInt / 4 < s.params.memWords →
      s.fetch = .ok (s.mem.read (off.toNat / 4)))

/-- R191, R193, R196: a step's error is the first that applies of Fetch, DecodeError and MemIndex, and each is raised by
exactly its condition. The members of ExecutionFault are the spec's decisions D7, D12 (log 10, 17), what an error carries its
decision D17 (log 27), and that a word of no operation is a DecodeError rests on its decisions D3, D4 (log 29, 18). -/
def Obligations.ErrorsComeInTheFixedOrder : Prop :=
  ∀ (s : State) (f : Fault), s.run = .running → (step s = .fault f ↔
    (s.fetchElement s.pc = none ∧ f = .fetch s.pc) ∨
    (∃ a, s.fetchElement s.pc = some a ∧
      ((decode s.params.keys (s.mem.read a) = .decodeError (s.mem.read a) ∧ f = .decodeError (s.mem.read a)) ∨
       (∃ rs rt imm, (decode s.params.keys (s.mem.read a) = .ok (.lw rs rt imm) ∨
          decode s.params.keys (s.mem.read a) = .ok (.sw rs rt imm)) ∧
        s.element (s.effectiveIndex rs imm) = none ∧ f = .memIndex (s.effectiveIndex rs imm)))))

/-- The invariant of the machine at reset (the values the model names for the open launch parameters; log 1 to 5). -/
def Obligations.ResetMeetsTheInvariant : Prop := State.reset.Inv

/-- R222: a launch takes its registers, memory and PC from the caller, with `cycles = 0`; every launch with legal parameters
and a memory image inside Memory meets the invariant. -/
def Obligations.EveryLegalLaunchMeetsTheInvariant : Prop :=
  ∀ (p : Params) (regs : Vector Word 32) (m : Memory) (pc : Word), p.wf → Memory.wf m → (∀ c ∈ m, c.1 < p.memWords) →
    (State.launch p regs m pc).Inv ∧ (∀ r, (State.launch p regs m pc).reg r = regs[r]) ∧
    (∀ a, (State.launch p regs m pc).mem.read a = m.read a) ∧ (State.launch p regs m pc).pc = pc ∧
    (State.launch p regs m pc).cycles = 0 ∧ (State.launch p regs m pc).run = .running

/-- Every step keeps the invariant: canonical memory inside Mem[0 .. MEM_WORDS - 1], legal and unchanged parameters,
consistent outputs, and a halted run only after a HALT (R38, R181, R195, R225). The driver is the spec's decision D11, D12
(log 10); the timing classes are its decision D15 (log 21), HALT's default PC output its decision D18 (log 23). That a step
of an ended run leaves the state is the model's choice (log 12). -/
def Obligations.StepKeepsTheInvariant : Prop :=
  ∀ (s t : State), s.Inv → step s = .next t → t.Inv ∧ t.params = s.params

/-- R192, R225: a step ends the run exactly when the word fetched is a HALT, and then leaves the registers, the memory and the
PC as they were: the PC is the HALT's address. The driver is the spec's decision D11, D12 (log 10), and that the PC stays at
the HALT its decision D18 (log 23). -/
def Obligations.OnlyHaltEndsARun : Prop :=
  ∀ (s t : State), s.run = .running → step s = .next t →
    (t.run = .halted ↔ ∃ w rs rt rd shamt, s.fetch = .ok w ∧ decode s.params.keys w = .ok (.halt rs rt rd shamt)) ∧
    (t.run = .halted → t.pc = s.pc ∧ t.regs = s.regs ∧ t.mem = s.mem)

/-- R225: the end of a run is final: watched for more steps, a halted run has the same final state and a faulted run the same
error and the state before the failing instruction. The driver is the spec's decision D11, D12 (log 10), the state at the end
of a run its decisions D17, D18 (log 27, 23). That a step of an ended run leaves the state is the model's choice (log 12). -/
def Obligations.TheEndOfARunIsFinal : Prop :=
  ∀ (n m : Nat) (s t : State) (f : Fault), n ≤ m →
    (runEnd n s = .halted t → runEnd m s = .halted t ∧ t.run = .halted ∧ step t = .next t) ∧
    (runEnd n s = .faulted f t → runEnd m s = .faulted f t ∧ t.run = .running ∧ step t = .fault f)

/-- R225, its own examples: a BEQ of a register with itself and offset 0, and a J to its own address, run for ever. The driver
is the spec's decision D11, D12 (log 10), and its handing in the instruction's own address D11 (log 11); that it has no step
limit is its decision D18 (log 23). -/
def Obligations.BranchesToThemselvesNeverEnd : Prop :=
  ∀ (s : State) (w : Word), s.run = .running → s.fetch = .ok w →
    ((∃ r, s.params.pcInOffset = .zero ∧ decode s.params.keys w = .ok (.beq r r 0)) ∨
     (∃ tgt, decode s.params.keys w = .ok (.j tgt) ∧ sext26 tgt = s.pc)) →
    NonTerminating s

/-- R53: a store to the element a PC value maps to is seen by the next fetch from it. That code and data share Memory is the
spec's decision D12 (log 10). -/
def Obligations.StoresAreSeenByLaterFetches : Prop :=
  ∀ (s : State) (rs rt : RegIndex) (imm : BitVec 16) (p : Word) (a : Nat), Memory.wf s.mem →
    s.element (s.effectiveIndex rs imm) = some a → s.fetchElement p = some a →
    ∃ t, exec (.sw rs rt imm) s = .next t ∧ State.fetch { t with pc := p } = .ok (s.reg rt)

/-- R183: no result depends on a cycle cost or on the total: with any other costs and total a step gives the same registers,
memory, PC and end of run, or the same error. The driver the step is made of is the spec's decision D11, D12 (log 10). -/
def Obligations.CyclesAreOnlyAStatistic : Prop :=
  ∀ (s : State) (n : Nat) (c : CostTable),
    (∀ f, step s = .fault f → step { s with cycles := n, params := { s.params with costs := c } } = .fault f) ∧
    (∀ t, step s = .next t → ∃ u, step { s with cycles := n, params := { s.params with costs := c } } = .next u ∧
      u.regs = t.regs ∧ u.mem = t.mem ∧ u.pc = t.pc ∧ u.run = t.run)

/-- The host's placing of an instruction: whatever the state, the next step fetches exactly the word placed (log 19). -/
def Obligations.APlacedWordIsFetchedNext : Prop :=
  ∀ (s : State) (w : Word), Memory.wf s.mem →
    (s.withFetchWord 32 w.toNat).run = .running ∧ (s.withFetchWord 32 w.toNat).fetch = .ok w
end

