-- ==== Sys2Proof/Laws/Decode.lean ====
section
/-! SUPPORT. The laws of the decoder and the encoder: the fields of a word of each layout, a word rebuilt from its fields, and
what the registry lookups find. -/

namespace Sys2Proof

/-! ### The bits of a laid-out word -/

@[simp] theorem regBits_toFin (r : RegIndex) : (regBits r).toFin = r := rfl
@[simp] theorem regBits_of_toFin (v : BitVec 5) : regBits v.toFin = v := rfl

section layouts
variable (rs rt rd : RegIndex) (sh : BitVec 5) (op fn : BitVec 6) (imm : BitVec 16) (tgt : BitVec 26)

theorem registerWord_bit (i : Nat) : (registerWord rs rt rd sh fn).getLsbD i =
    if i < 6 then fn.getLsbD i else if i < 11 then sh.getLsbD (i - 6) else if i < 16 then (regBits rd).getLsbD (i - 11)
    else if i < 21 then (regBits rt).getLsbD (i - 16) else (regBits rs).getLsbD (i - 21) := by
  simp only [registerWord, BitVec.getLsbD_append]
  split_ifs <;> first | omega | rfl | skip
  rw [BitVec.getLsbD_of_ge (regBits rs) _ (by omega), BitVec.getLsbD_zero]

theorem immediateWord_bit (i : Nat) : (immediateWord op rs rt imm).getLsbD i =
    if i < 16 then imm.getLsbD i else if i < 21 then (regBits rt).getLsbD (i - 16)
    else if i < 26 then (regBits rs).getLsbD (i - 21) else op.getLsbD (i - 26) := by
  simp only [immediateWord, BitVec.getLsbD_append]
  split_ifs <;> first | omega | rfl

theorem jumpWord_bit (i : Nat) :
    (jumpWord op tgt).getLsbD i = if i < 26 then tgt.getLsbD i else op.getLsbD (i - 26) := by
  simp only [jumpWord, BitVec.getLsbD_append]

/-! ### The fields of a laid-out word -/

/-- A slice of a word, bit by bit. -/
theorem slice_eq {n lo : Nat} {w : Word} {v : BitVec n} (h : ∀ i < n, w.getLsbD (lo + i) = v.getLsbD i) :
    w.extractLsb' lo n = v :=
  BitVec.eq_of_getLsbD_eq fun i hi => by rw [BitVec.getLsbD_extractLsb']; simpa [hi] using h i hi

@[simp] theorem opcodeField_registerWord : opcodeField (registerWord rs rt rd sh fn) = 0 :=
  slice_eq fun i hi => by
    rw [registerWord_bit]; split_ifs <;> first | omega | simp
    exact BitVec.getLsbD_of_ge _ _ (by omega)

@[simp] theorem rsField_registerWord : rsField (registerWord rs rt rd sh fn) = rs :=
  congrArg BitVec.toFin <| slice_eq (v := regBits rs) fun i hi => by
    rw [registerWord_bit]; split_ifs <;> first | omega | congr 1; omega

@[simp] theorem rtField_registerWord : rtField (registerWord rs rt rd sh fn) = rt :=
  congrArg BitVec.toFin <| slice_eq (v := regBits rt) fun i hi => by
    rw [registerWord_bit]; split_ifs <;> first | omega | congr 1; omega

@[simp] theorem rdField_registerWord : rdField (registerWord rs rt rd sh fn) = rd :=
  congrArg BitVec.toFin <| slice_eq (v := regBits rd) fun i hi => by
    rw [registerWord_bit]; split_ifs <;> first | omega | congr 1; omega

@[simp] theorem shamtField_registerWord : shamtField (registerWord rs rt rd sh fn) = sh :=
  slice_eq fun i hi => by
    rw [registerWord_bit]; split_ifs <;> first | omega | congr 1; omega

@[simp] theorem functField_registerWord : functField (registerWord rs rt rd sh fn) = fn :=
  slice_eq fun i hi => by
    rw [registerWord_bit]; split_ifs <;> first | omega | congr 1; omega

@[simp] theorem opcodeField_immediateWord : opcodeField (immediateWord op rs rt imm) = op :=
  slice_eq fun i hi => by
    rw [immediateWord_bit]; split_ifs <;> first | omega | congr 1; omega

@[simp] theorem rsField_immediateWord : rsField (immediateWord op rs rt imm) = rs :=
  congrArg BitVec.toFin <| slice_eq (v := regBits rs) fun i hi => by
    rw [immediateWord_bit]; split_ifs <;> first | omega | congr 1; omega

@[simp] theorem rtField_immediateWord : rtField (immediateWord op rs rt imm) = rt :=
  congrArg BitVec.toFin <| slice_eq (v := regBits rt) fun i hi => by
    rw [immediateWord_bit]; split_ifs <;> first | omega | congr 1; omega

@[simp] theorem imm16Field_immediateWord : imm16Field (immediateWord op rs rt imm) = imm :=
  slice_eq fun i hi => by
    rw [immediateWord_bit]; split_ifs <;> first | omega | congr 1; omega

@[simp] theorem opcodeField_jumpWord : opcodeField (jumpWord op tgt) = op :=
  slice_eq fun i hi => by
    rw [jumpWord_bit]; split_ifs <;> first | omega | congr 1; omega

@[simp] theorem tgt26Field_jumpWord : tgt26Field (jumpWord op tgt) = tgt :=
  slice_eq fun i hi => by
    rw [jumpWord_bit]; split_ifs <;> first | omega | congr 1; omega

end layouts

/-! ### A word rebuilt from its fields -/

section rebuild
variable (w : Word)

theorem opcodeField_bit (i : Nat) (h : i < 6) : (opcodeField w).getLsbD i = w.getLsbD (26 + i) := by
  simp [opcodeField, h]
theorem functField_bit (i : Nat) (h : i < 6) : (functField w).getLsbD i = w.getLsbD i := by
  simp [functField, h]
theorem shamtField_bit (i : Nat) (h : i < 5) : (shamtField w).getLsbD i = w.getLsbD (6 + i) := by
  simp [shamtField, h]
theorem rdField_bit (i : Nat) (h : i < 5) : (regBits (rdField w)).getLsbD i = w.getLsbD (11 + i) := by
  rw [rdField, regBits_of_toFin]; simp [h]
theorem rtField_bit (i : Nat) (h : i < 5) : (regBits (rtField w)).getLsbD i = w.getLsbD (16 + i) := by
  rw [rtField, regBits_of_toFin]; simp [h]
theorem rsField_bit (i : Nat) (h : i < 5) : (regBits (rsField w)).getLsbD i = w.getLsbD (21 + i) := by
  rw [rsField, regBits_of_toFin]; simp [h]
theorem imm16Field_bit (i : Nat) (h : i < 16) : (imm16Field w).getLsbD i = w.getLsbD i := by
  simp [imm16Field, h]
theorem tgt26Field_bit (i : Nat) (h : i < 26) : (tgt26Field w).getLsbD i = w.getLsbD i := by
  simp [tgt26Field, h]

/-- A word with opcode 0 is the REGISTER layout of its fields (R61). -/
theorem registerWord_fields (h : opcodeField w = 0) :
    registerWord (rsField w) (rtField w) (rdField w) (shamtField w) (functField w) = w := by
  refine BitVec.eq_of_getLsbD_eq fun i hi => ?_
  rw [registerWord_bit]
  split_ifs with h6 h11 h16 h21
  · exact functField_bit w i h6
  · rw [shamtField_bit w _ (by omega)]; congr 1; omega
  · rw [rdField_bit w _ (by omega)]; congr 1; omega
  · rw [rtField_bit w _ (by omega)]; congr 1; omega
  · by_cases h26 : i < 26
    · rw [rsField_bit w _ (by omega)]; congr 1; omega
    · have hz := opcodeField_bit w (i - 26) (by omega)
      rw [h, BitVec.getLsbD_of_ge (regBits _) _ (by omega)] at *
      rw [show 26 + (i - 26) = i by omega] at hz
      simpa using hz

/-- Every word is the IMMEDIATE layout of its fields (R62). -/
theorem immediateWord_fields : immediateWord (opcodeField w) (rsField w) (rtField w) (imm16Field w) = w := by
  refine BitVec.eq_of_getLsbD_eq fun i hi => ?_
  rw [immediateWord_bit]
  split_ifs with h16 h21 h26
  · exact imm16Field_bit w i h16
  · rw [rtField_bit w _ (by omega)]; congr 1; omega
  · rw [rsField_bit w _ (by omega)]; congr 1; omega
  · rw [opcodeField_bit w _ (by omega)]; congr 1; omega

/-- Every word is the JUMP layout of its fields (R63). -/
theorem jumpWord_fields : jumpWord (opcodeField w) (tgt26Field w) = w := by
  refine BitVec.eq_of_getLsbD_eq fun i hi => ?_
  rw [jumpWord_bit]
  split_ifs with h26
  · exact tgt26Field_bit w i h26
  · rw [opcodeField_bit w _ (by omega)]; congr 1; omega

end rebuild

/-! ### The registry -/

theorem Op.mem_all (op : Op) : op ∈ Op.all := by cases op <;> decide

theorem Op.mem_byOpcode (op : Op) : op ∈ Op.byOpcode ↔ op.family ≠ .register := by cases op <;> decide

theorem Op.mem_byFunct (op : Op) : op ∈ Op.byFunct ↔ op.family = .register ∧ op ≠ .nop := by cases op <;> decide

theorem KeyTable.key_eq_none (k : KeyTable) (op : Op) : k.key op = none ↔ op = .nop := by
  cases op <;> simp [KeyTable.key]

/-- No two operations that are looked up the same way have one key, under R72. -/
theorem KeyTable.wf.key_inj {k : KeyTable} (hk : k.wf) {a b : Op} (hf : a.family = .register ↔ b.family = .register)
    (ha : a ≠ .nop) (hb : b ≠ .nop) (h : k.key a = k.key b) : a = b := by
  obtain ⟨-, hop, hfn, -⟩ := hk
  by_cases hr : a.family = .register
  · exact List.inj_on_of_nodup_map hfn ((Op.mem_byFunct a).mpr ⟨hr, ha⟩) ((Op.mem_byFunct b).mpr ⟨hf.mp hr, hb⟩) h
  · exact List.inj_on_of_nodup_map hop ((Op.mem_byOpcode a).mpr hr) ((Op.mem_byOpcode b).mpr fun e => hr (hf.mpr e)) h

/-- What a lookup over the registry finds, when at most one entry can match. -/
theorem KeyTable.find_registry (k : KeyTable) (p : RegistryEntry → Bool)
    (huniq : ∀ a b, p (k.entry a) = true → p (k.entry b) = true → a = b) (op : Op) :
    (k.registry.find? p).map (·.op) = some op ↔ p (k.entry op) = true := by
  constructor
  · intro h
    obtain ⟨e, he, rfl⟩ := Option.map_eq_some_iff.mp h
    obtain ⟨a, -, rfl⟩ := List.mem_map.mp (List.mem_of_find?_eq_some he)
    exact List.find?_some he
  · intro h
    have hmem : k.entry op ∈ k.registry := List.mem_map.mpr ⟨op, Op.mem_all op, rfl⟩
    obtain ⟨e, he⟩ := Option.isSome_iff_exists.mp (List.find?_isSome.mpr ⟨_, hmem, h⟩)
    obtain ⟨a, -, rfl⟩ := List.mem_map.mp (List.mem_of_find?_eq_some he)
    rw [he, huniq op a h (List.find?_some he)]
    rfl

/-- The opcode lookup, under R72. -/
theorem KeyTable.wf.lookupOpcode_eq {k : KeyTable} (hk : k.wf) (v : BitVec 6) (op : Op) :
    k.lookupOpcode v = some op ↔ op.family ≠ .register ∧ k.key op = some v := by
  unfold KeyTable.lookupOpcode
  rw [KeyTable.find_registry]
  · rw [decide_eq_true_eq]; rfl
  · intro a b ha hb
    rw [decide_eq_true_eq] at ha hb
    simp only [KeyTable.entry, ne_eq] at ha hb
    refine hk.key_inj (by tauto) ?_ ?_ (ha.2.trans hb.2.symm)
    · rintro rfl; simp [KeyTable.key] at ha
    · rintro rfl; simp [KeyTable.key] at hb

/-- The function-code lookup, under R72. -/
theorem KeyTable.wf.lookupFunct_eq {k : KeyTable} (hk : k.wf) (v : BitVec 6) (op : Op) :
    k.lookupFunct v = some op ↔ op.family = .register ∧ k.key op = some v := by
  unfold KeyTable.lookupFunct
  rw [KeyTable.find_registry]
  · rw [decide_eq_true_eq]; rfl
  · intro a b ha hb
    rw [decide_eq_true_eq] at ha hb
    simp only [KeyTable.entry] at ha hb
    refine hk.key_inj (by tauto) ?_ ?_ (ha.2.trans hb.2.symm)
    · rintro rfl; simp [KeyTable.key] at ha
    · rintro rfl; simp [KeyTable.key] at hb

/-- An IMMEDIATE or JUMP key is a nonzero opcode (R72). -/
theorem KeyTable.wf.opcode_ne_zero {k : KeyTable} (hk : k.wf) {op : Op} (hf : op.family ≠ .register) {v : BitVec 6}
    (h : k.key op = some v) : v ≠ 0 := by
  rintro rfl
  exact hk.1 op ((Op.mem_byOpcode op).mpr hf) h

/-- A nonzero word whose opcode is zero is read by its function code. -/
theorem decodeOp_register {k : KeyTable} (hk : k.wf) {w : Word} {op : Op} (hw : w ≠ 0) (ho : opcodeField w = 0)
    (hf : op.family = .register) (hkey : k.key op = some (functField w)) : decodeOp k w = some op := by
  simp only [decodeOp, hw, ho, if_false, ne_eq, not_true_eq_false]
  exact (hk.lookupFunct_eq _ _).mpr ⟨hf, hkey⟩

/-- A word whose opcode is the key of an IMMEDIATE or JUMP operation is read by its opcode. -/
theorem decodeOp_opcode {k : KeyTable} (hk : k.wf) {w : Word} {op : Op} (hf : op.family ≠ .register)
    (hkey : k.key op = some (opcodeField w)) : decodeOp k w = some op := by
  have hne := hk.opcode_ne_zero hf hkey
  have hw : w ≠ 0 := fun e => hne (by rw [e]; decide)
  simp only [decodeOp, hw, if_false, hne, ne_eq, not_false_eq_true, if_true]
  exact (hk.lookupOpcode_eq _ _).mpr ⟨hf, hkey⟩

/-- Of the function codes only SLL's is zero (R71, R72). -/
theorem KeyTable.wf.funct_ne_zero {k : KeyTable} (hk : k.wf) {op : Op} (hf : op.family = .register) (hs : op ≠ .sll)
    {v : BitVec 6} (h : k.key op = some v) : v ≠ 0 := by
  rintro rfl
  have hn : op ≠ .nop := by rintro rfl; simp [KeyTable.key] at h
  have hz : k.key .sll = some 0 := by rw [KeyTable.key, hk.2.2.2]
  exact hs (hk.key_inj (iff_of_true hf rfl) hn (by decide) (h.trans hz.symm))

theorem functField_zero : functField 0 = 0 := by decide
theorem opcodeField_zero : opcodeField 0 = 0 := by decide

/-- A function code other than SLL's stands in no zero word. -/
theorem KeyTable.wf.word_ne_zero {k : KeyTable} (hk : k.wf) {op : Op} (hf : op.family = .register) (hs : op ≠ .sll) {w : Word}
    (h : k.key op = some (functField w)) : w ≠ 0 := by
  rintro rfl
  exact hk.funct_ne_zero hf hs h functField_zero

end Sys2Proof
end

