-- ==== Sys2Proof/Laws/State.lean ====
section
/-! SUPPORT. One lemma per field per update of State, so that no later proof unfolds a record update; and the two laws of
the register file. -/

namespace Sys2Proof.Machine

/-! ### `writeReg` -/

@[simp] theorem State.writeReg_mem (s : State) (i : RegIndex) (v : Word) : (s.writeReg i v).mem = s.mem := rfl
@[simp] theorem State.writeReg_pc (s : State) (i : RegIndex) (v : Word) : (s.writeReg i v).pc = s.pc := rfl
@[simp] theorem State.writeReg_cycles (s : State) (i : RegIndex) (v : Word) : (s.writeReg i v).cycles = s.cycles := rfl
@[simp] theorem State.writeReg_run (s : State) (i : RegIndex) (v : Word) : (s.writeReg i v).run = s.run := rfl
@[simp] theorem State.writeReg_out (s : State) (i : RegIndex) (v : Word) : (s.writeReg i v).out = s.out := rfl
@[simp] theorem State.writeReg_params (s : State) (i : RegIndex) (v : Word) : (s.writeReg i v).params = s.params := rfl
@[simp] theorem State.writeReg_regs (s : State) (i : RegIndex) (v : Word) : (s.writeReg i v).regs = s.regs.set i v := rfl

@[simp] theorem State.writeReg_reg_self (s : State) (i : RegIndex) (v : Word) : (s.writeReg i v).reg i = v := by
  simp [State.reg, State.writeReg]

theorem State.writeReg_reg_ne (s : State) {i r : RegIndex} (v : Word) (h : r ≠ i) : (s.writeReg i v).reg r = s.reg r := by
  simp only [State.reg, State.writeReg, Fin.getElem_fin]
  exact Vector.getElem_set_ne _ _ (fun e => h (Fin.ext e.symm))

/-! ### `complete` -/

@[simp] theorem State.complete_regs (s : State) (op : Op) (p : PcSel) (st : Status) : (s.complete op p st).regs = s.regs := rfl
@[simp] theorem State.complete_mem (s : State) (op : Op) (p : PcSel) (st : Status) : (s.complete op p st).mem = s.mem := rfl
@[simp] theorem State.complete_pc (s : State) (op : Op) (p : PcSel) (st : Status) : (s.complete op p st).pc = s.pc := rfl
@[simp] theorem State.complete_cycles (s : State) (op : Op) (p : PcSel) (st : Status) : (s.complete op p st).cycles = s.cycles := rfl
@[simp] theorem State.complete_run (s : State) (op : Op) (p : PcSel) (st : Status) : (s.complete op p st).run = s.run := rfl
@[simp] theorem State.complete_params (s : State) (op : Op) (p : PcSel) (st : Status) : (s.complete op p st).params = s.params := rfl
@[simp] theorem State.complete_reg (s : State) (op : Op) (p : PcSel) (st : Status) (r : RegIndex) : (s.complete op p st).reg r = s.reg r := rfl
@[simp] theorem State.complete_out (s : State) (op : Op) (p : PcSel) (st : Status) :
    (s.complete op p st).out = some ⟨p, st, op.timingClass, s.params.costs.cycleCost op⟩ := rfl

/-! ### `launch` -/

@[simp] theorem State.launch_regs (p : Params) (r : Vector Word 32) (m : Memory) (pc : Word) : (State.launch p r m pc).regs = r := rfl
@[simp] theorem State.launch_mem (p : Params) (r : Vector Word 32) (m : Memory) (pc : Word) : (State.launch p r m pc).mem = m := rfl
@[simp] theorem State.launch_pc (p : Params) (r : Vector Word 32) (m : Memory) (pc : Word) : (State.launch p r m pc).pc = pc := rfl
@[simp] theorem State.launch_cycles (p : Params) (r : Vector Word 32) (m : Memory) (pc : Word) : (State.launch p r m pc).cycles = 0 := rfl
@[simp] theorem State.launch_run (p : Params) (r : Vector Word 32) (m : Memory) (pc : Word) : (State.launch p r m pc).run = .running := rfl
@[simp] theorem State.launch_out (p : Params) (r : Vector Word 32) (m : Memory) (pc : Word) : (State.launch p r m pc).out = none := rfl
@[simp] theorem State.launch_params (p : Params) (r : Vector Word 32) (m : Memory) (pc : Word) : (State.launch p r m pc).params = p := rfl

/-! ### `settle`: the driver's part of a step changes the PC, the total and the end of the run only -/

@[simp] theorem State.settle_regs (s : State) : s.settle.regs = s.regs := by
  unfold State.settle; split <;> [rfl; (dsimp only; split <;> rfl)]

@[simp] theorem State.settle_mem (s : State) : s.settle.mem = s.mem := by
  unfold State.settle; split <;> [rfl; (dsimp only; split <;> rfl)]

@[simp] theorem State.settle_out (s : State) : s.settle.out = s.out := by
  unfold State.settle; split <;> [rfl; (dsimp only; split <;> rfl)]

@[simp] theorem State.settle_params (s : State) : s.settle.params = s.params := by
  unfold State.settle; split <;> [rfl; (dsimp only; split <;> rfl)]

/-- The whole of `settle` on a state whose instruction has completed with `o` (R224). -/
theorem State.settle_of_out {s : State} {o : Outputs} (h : s.out = some o) :
    s.settle = { s with
      cycles := s.cycles + (bookedCost s.params.costs o).toNat
      run := if o.status = .halt then .halted else s.run
      pc := if o.status = .halt then s.pc else nextPc s.pc o.pcSel } := by
  unfold State.settle
  rw [h]
  rcases o with ⟨_, status, _, _⟩
  cases status <;> simp

end Sys2Proof.Machine
end

