-- ==== Sys2Proof/Laws/Memory.lean ====
section
/-! SUPPORT. The laws of Memory: reading after a write, and that a write keeps the canonical form and the bound. -/

namespace Sys2Proof.Machine

theorem Memory.wf_nil : Memory.wf [] := by simp [Memory.wf]

/-- A cell can stand in front of a canonical memory when its index is below every other and it says something. -/
theorem Memory.wf_cons {c : Cell} {m : Memory} :
    Memory.wf (c :: m) ↔ (∀ d ∈ m, c.1 < d.1) ∧ c.2 ≠ unlistedWord ∧ Memory.wf m := by
  simp only [Memory.wf, List.pairwise_cons, List.mem_cons, forall_eq_or_imp]
  tauto

/-- An index below every listed one reads as an unlisted element. -/
theorem Memory.read_below {m : Memory} {a : Nat} (h : ∀ c ∈ m, a < c.1) : Memory.read m a = unlistedWord := by
  induction m with
  | nil => rfl
  | cons c m ih =>
    have hc : a ≠ c.1 := Nat.ne_of_lt (h c (by simp))
    rw [Memory.read, if_neg hc]
    exact ih fun d hd => h d (by simp [hd])

theorem Memory.read_put (m : Memory) (a b : Nat) (v : Word) (h : v = unlistedWord → Memory.read m a = unlistedWord) :
    Memory.read (Memory.put a v m) b = if b = a then v else Memory.read m b := by
  unfold Memory.put
  by_cases hv : v = unlistedWord
  · rw [if_pos hv]
    by_cases hb : b = a
    · rw [if_pos hb, hb, h hv, hv]
    · rw [if_neg hb]
  · rw [if_neg hv, Memory.read]

/-- Reading after a write, in a canonical memory: the written element is the value, every other one is as before. -/
theorem Memory.read_write {m : Memory} (hm : Memory.wf m) (a b : Nat) (v : Word) :
    Memory.read (Memory.write m a v) b = if b = a then v else Memory.read m b := by
  induction m with
  | nil => exact Memory.read_put [] a b v fun _ => rfl
  | cons c m ih =>
    obtain ⟨hlt, hne, htail⟩ := Memory.wf_cons.mp hm
    rcases c with ⟨i, u⟩
    rw [Memory.write]
    rcases Nat.lt_trichotomy a i with h | h | h
    · rw [if_pos h, Memory.read_put]
      refine fun _ => Memory.read_below fun d hd => ?_
      rcases List.mem_cons.mp hd with rfl | hd
      · exact h
      · exact Nat.lt_trans h (hlt d hd)
    · subst h
      rw [if_neg (Nat.lt_irrefl a), if_pos rfl, Memory.read_put _ _ _ _ fun _ => Memory.read_below hlt, Memory.read]
      by_cases hb : b = a <;> simp [hb]
    · rw [if_neg (Nat.not_lt_of_gt h), if_neg (Nat.ne_of_gt h), Memory.read, Memory.read, ih htail]
      by_cases hb : b = i
      · have : b ≠ a := by omega
        rw [if_pos hb, if_neg this, if_pos hb]
      · rw [if_neg hb, if_neg hb]

/-- Every index listed after a write is the written one or was listed before. -/
theorem Memory.mem_write {m : Memory} {a : Nat} {v : Word} {c : Cell} (h : c ∈ Memory.write m a v) : c.1 = a ∨ c ∈ m := by
  have put {n : Memory} (h : c ∈ Memory.put a v n) : c.1 = a ∨ c ∈ n := by
    unfold Memory.put at h
    split at h
    · exact .inr h
    · rcases List.mem_cons.mp h with rfl | h
      · exact .inl rfl
      · exact .inr h
  induction m with
  | nil => exact put h
  | cons d m ih =>
    rcases d with ⟨i, u⟩
    rw [Memory.write] at h
    split at h
    · exact put h
    · split at h
      · exact (put h).imp_right (by simp +contextual)
      · rcases List.mem_cons.mp h with rfl | h
        · simp
        · exact (ih h).imp_right (by simp +contextual)

/-- A write keeps the canonical form. -/
theorem Memory.wf_write {m : Memory} (hm : Memory.wf m) (a : Nat) (v : Word) : Memory.wf (Memory.write m a v) := by
  have put {n : Memory} (hlt : ∀ d ∈ n, a < d.1) (hn : Memory.wf n) : Memory.wf (Memory.put a v n) := by
    unfold Memory.put
    split
    · exact hn
    · exact Memory.wf_cons.mpr ⟨hlt, ‹_›, hn⟩
  induction m with
  | nil => exact put (by simp) Memory.wf_nil
  | cons c m ih =>
    obtain ⟨hlt, hne, htail⟩ := Memory.wf_cons.mp hm
    rcases c with ⟨i, u⟩
    rw [Memory.write]
    split
    · next h =>
      refine put (fun d hd => ?_) hm
      rcases List.mem_cons.mp hd with rfl | hd
      · exact h
      · exact Nat.lt_trans h (hlt d hd)
    · split
      · next h => exact put (by simpa [h] using hlt) htail
      · next h1 h2 =>
        refine Memory.wf_cons.mpr ⟨fun d hd => ?_, hne, ih htail⟩
        rcases Memory.mem_write hd with h | h
        · simp only; omega
        · exact hlt d h

/-- A write inside a bound keeps every listed index inside it. -/
theorem Memory.bound_write {m : Memory} {n a : Nat} (h : ∀ c ∈ m, c.1 < n) (ha : a < n) (v : Word) :
    ∀ c ∈ Memory.write m a v, c.1 < n := by
  intro c hc
  rcases Memory.mem_write hc with rfl | hc
  · exact ha
  · exact h c hc

end Sys2Proof.Machine
end

