-- ==== Sys2Proof/Laws/Ops.lean ====
section
/-! SUPPORT. One lemma for each shared operation that says once everything it can do; the inversion of `exec`, of `step` and of
`fetch`. Later proofs cite these and do not unfold the operations. -/

namespace Sys2Proof.Machine

/-! ### Indices and accesses -/

/-- What element an index names (R43, R132). -/
theorem State.element_eq_some {s : State} {idx : Word} {a : Nat} :
    s.element idx = some a ↔ 0 ≤ idx.toInt ∧ idx.toInt < s.params.memWords ∧ a = idx.toNat := by
  unfold State.element
  have hn := BitVec.toInt_eq_toNat_cond idx
  have := idx.isLt
  split_ifs at hn <;> split_ifs <;> simp <;> omega

theorem State.element_eq_none {s : State} {idx : Word} :
    s.element idx = none ↔ idx.toInt < 0 ∨ (s.params.memWords : Int) ≤ idx.toInt := by
  unfold State.element
  split_ifs <;> simp <;> omega

/-- An element an index names lies in Mem[0 .. MEM_WORDS - 1] (R38). -/
theorem State.element_lt {s : State} {idx : Word} {a : Nat} (h : s.element idx = some a) : a < s.params.memWords := by
  obtain ⟨h0, hlt, rfl⟩ := State.element_eq_some.mp h
  have hn := BitVec.toInt_eq_toNat_cond idx
  split_ifs at hn <;> omega

theorem State.memRead_some {s : State} {idx : Word} {a : Nat} (h : s.element idx = some a) :
    s.memRead idx = .ok (s.mem.read a) := by simp [State.memRead, h]

theorem State.memRead_none {s : State} {idx : Word} (h : s.element idx = none) :
    s.memRead idx = .error (.memIndex idx) := by simp [State.memRead, h]

theorem State.memWrite_some {s : State} {idx v : Word} {a : Nat} (h : s.element idx = some a) :
    s.memWrite idx v = .ok { s with mem := s.mem.write a v } := by simp [State.memWrite, h]

theorem State.memWrite_none {s : State} {idx v : Word} (h : s.element idx = none) :
    s.memWrite idx v = .error (.memIndex idx) := by simp [State.memWrite, h]

/-! ### The endings of an instruction -/

theorem State.writeBack_eq (s : State) (op : Op) (dst : RegIndex) (v : Word) : s.writeBack op dst v =
    .next { s with regs := s.regs.set dst v
                   out := some ⟨.default, .normal, op.timingClass, s.params.costs.cycleCost op⟩ } := rfl

theorem State.branch_eq (s : State) (op : Op) (taken : Bool) (target : Word) : s.branch op taken target =
    .next { s with out := some ⟨branchPcSel taken target, branchStatus taken, op.timingClass,
                                s.params.costs.cycleCost op⟩ } := rfl

theorem State.jump_eq (s : State) (op : Op) (target : Word) : s.jump op target =
    .next { s with out := some ⟨.redirect target, .normal, op.timingClass, s.params.costs.cycleCost op⟩ } := rfl

/-- LW inside Memory (R130). -/
theorem execLw_some {rs rt : RegIndex} {imm : BitVec 16} {s : State} {a : Nat}
    (h : s.element (s.effectiveIndex rs imm) = some a) :
    execLw rs rt imm s = s.writeBack .lw rt (s.mem.read a) := by simp [execLw, State.memRead_some h]

/-- LW outside Memory (R130). -/
theorem execLw_none {rs rt : RegIndex} {imm : BitVec 16} {s : State} (h : s.element (s.effectiveIndex rs imm) = none) :
    execLw rs rt imm s = .fault (.memIndex (s.effectiveIndex rs imm)) := by
  simp [execLw, State.memRead_none h, raise]

/-- SW inside Memory (R131). -/
theorem execSw_some {rs rt : RegIndex} {imm : BitVec 16} {s : State} {a : Nat}
    (h : s.element (s.effectiveIndex rs imm) = some a) :
    execSw rs rt imm s =
      .next (({ s with mem := s.mem.write a (s.reg rt) } : State).complete .sw .default .normal) := by
  simp [execSw, State.memWrite_some h]

/-- SW outside Memory (R131). -/
theorem execSw_none {rs rt : RegIndex} {imm : BitVec 16} {s : State} (h : s.element (s.effectiveIndex rs imm) = none) :
    execSw rs rt imm s = .fault (.memIndex (s.effectiveIndex rs imm)) := by
  simp [execSw, State.memWrite_none h, raise]

/-! ### What `exec` can do -/

/-- The inversion of `exec`: a completed instruction writes at most one register or one element, and its outputs; a failed one
is a load or store outside Memory. -/
theorem exec_cases (i : Instr) (s : State) :
    (∃ o v, ∃ r : RegIndex, exec i s = .next { s with regs := s.regs.set r v, out := some o }) ∨
    (∃ o, exec i s = .next { s with out := some o }) ∨
    (∃ o idx a v, s.element idx = some a ∧ exec i s = .next { s with mem := s.mem.write a v, out := some o }) ∨
    (∃ idx, s.element idx = none ∧ exec i s = .fault (.memIndex idx)) := by
  cases i
  case lw rs rt imm =>
    cases h : s.element (s.effectiveIndex rs imm) with
    | none => exact .inr (.inr (.inr ⟨_, h, execLw_none h⟩))
    | some a => exact .inl ⟨_, _, rt, (execLw_some h).trans (s.writeBack_eq _ _ _)⟩
  case sw rs rt imm =>
    cases h : s.element (s.effectiveIndex rs imm) with
    | none => exact .inr (.inr (.inr ⟨_, h, execSw_none h⟩))
    | some a => exact .inr (.inr (.inl ⟨_, _, a, _, h, execSw_some h⟩))
  all_goals first
    | exact .inl ⟨_, _, _, rfl⟩
    | exact .inr (.inl ⟨_, rfl⟩)

/-- A completed instruction has its outputs in `out`, and the timing class and cost of its operation (R181). -/
theorem exec_out {i : Instr} {s t : State} (h : exec i s = .next t) :
    ∃ sel st, t.out = some ⟨sel, st, i.op.timingClass, s.params.costs.cycleCost i.op⟩ := by
  cases i
  case lw rs rt imm =>
    simp only [exec] at h
    cases he : s.element (s.effectiveIndex rs imm) with
    | none => rw [execLw_none he] at h; cases h
    | some a => rw [execLw_some he, State.writeBack_eq] at h; cases h; exact ⟨_, _, rfl⟩
  case sw rs rt imm =>
    simp only [exec] at h
    cases he : s.element (s.effectiveIndex rs imm) with
    | none => rw [execSw_none he] at h; cases h
    | some a => rw [execSw_some he] at h; cases h; exact ⟨_, _, rfl⟩
  all_goals cases h; exact ⟨_, _, rfl⟩

/-! ### What a fetch and a step can do -/

/-- What element the PC maps to (R223). -/
theorem State.fetchElement_eq_some {s : State} {p : Word} {a : Nat} : s.fetchElement p = some a ↔
    (p - s.params.programBase).toNat % 4 = 0 ∧ 0 ≤ (p - s.params.programBase).toInt ∧
      (p - s.params.programBase).toInt / 4 < s.params.memWords ∧ a = (p - s.params.programBase).toNat / 4 := by
  unfold State.fetchElement
  generalize p - s.params.programBase = off
  have hn := BitVec.toInt_eq_toNat_cond off
  have := off.isLt
  simp only
  split_ifs at hn <;> split_ifs <;> simp <;> omega

theorem State.fetch_some {s : State} {a : Nat} (h : s.fetchElement s.pc = some a) : s.fetch = .ok (s.mem.read a) := by
  simp [State.fetch, h]

theorem State.fetch_none {s : State} (h : s.fetchElement s.pc = none) : s.fetch = .error (.fetch s.pc) := by
  simp [State.fetch, h]

theorem step_halted {s : State} (h : s.run = .halted) : step s = .next s := by simp [step, driverStep, h]

theorem step_fetch_none {s : State} (h : s.run = .running) (hf : s.fetchElement s.pc = none) :
    step s = .fault (.fetch s.pc) := by simp [step, driverStep, h, State.fetch_none hf, raise]

theorem step_decodeError {s : State} {a : Nat} {w : Word} (h : s.run = .running) (hf : s.fetchElement s.pc = some a)
    (hd : decode s.params.keys (s.mem.read a) = .decodeError w) : step s = .fault (.decodeError w) := by
  simp [step, driverStep, h, State.fetch_some hf, coreStep, hd, raise]

/-- A step whose word decodes is `exec` of the instruction, settled by the driver (R224). -/
theorem step_decoded {s : State} {a : Nat} {i : Instr} (h : s.run = .running) (hf : s.fetchElement s.pc = some a)
    (hd : decode s.params.keys (s.mem.read a) = .ok i) : step s =
      match exec i s with
      | .next t    => .next t.settle
      | .fault f   => .fault f
      | .refused r => .refused r := by
  cases he : exec i s <;> simp [step, driverStep, h, State.fetch_some hf, coreStep, hd, he]

/-- The inversion of `step`: a step that answers a next state is that of an ended run, or ran a decoded instruction. -/
theorem step_next {s t : State} (h : step s = .next t) :
    (s.run = .halted ∧ t = s) ∨
    ∃ a i u, s.run = .running ∧ s.fetchElement s.pc = some a ∧ decode s.params.keys (s.mem.read a) = .ok i ∧
      exec i s = .next u ∧ t = u.settle := by
  cases hr : s.run with
  | halted => rw [step_halted hr] at h; cases h; exact .inl ⟨rfl, rfl⟩
  | running =>
    right
    cases hf : s.fetchElement s.pc with
    | none => rw [step_fetch_none hr hf] at h; cases h
    | some a =>
      cases hd : decode s.params.keys (s.mem.read a) with
      | decodeError w => rw [step_decodeError hr hf hd] at h; cases h
      | ok i =>
        rw [step_decoded hr hf hd] at h
        cases he : exec i s with
        | next u => rw [he] at h; cases h; exact ⟨a, i, u, rfl, rfl, hd, he, rfl⟩
        | fault f => rw [he] at h; cases h
        | refused r => rw [he] at h; cases h

end Sys2Proof.Machine
end

