-- ==== Sys2Proof/Laws/PerInstr.lean ====
section
/-! SUPPORT. The family FieldRecovery: the word an instruction is encoded as has exactly the instruction's fields, whatever the
key numerals are. -/

namespace Sys2Proof.Laws

def FieldRecovery.Statement (i : Instr) : Prop := ∀ k : KeyTable, Instr.ofOp i.op (encode k i) = i

namespace FieldRecovery

/-- By the field laws of the instruction's layout. -/
theorem of_layout (i : Instr) : Statement i := by
  intro k
  cases i <;> simp [Instr.op, Instr.ofOp, encode]

theorem nop : Statement .nop := of_layout _
theorem and (rs rt rd : RegIndex) (sh : BitVec 5) : Statement (.and rs rt rd sh) := of_layout _
theorem or (rs rt rd : RegIndex) (sh : BitVec 5) : Statement (.or rs rt rd sh) := of_layout _
theorem add (rs rt rd : RegIndex) (sh : BitVec 5) : Statement (.add rs rt rd sh) := of_layout _
theorem sub (rs rt rd : RegIndex) (sh : BitVec 5) : Statement (.sub rs rt rd sh) := of_layout _
theorem addu (rs rt rd : RegIndex) (sh : BitVec 5) : Statement (.addu rs rt rd sh) := of_layout _
theorem sltu (rs rt rd : RegIndex) (sh : BitVec 5) : Statement (.sltu rs rt rd sh) := of_layout _
theorem sll (rs rt rd : RegIndex) (sh : BitVec 5) : Statement (.sll rs rt rd sh) := of_layout _
theorem srl (rs rt rd : RegIndex) (sh : BitVec 5) : Statement (.srl rs rt rd sh) := of_layout _
theorem sra (rs rt rd : RegIndex) (sh : BitVec 5) : Statement (.sra rs rt rd sh) := of_layout _
theorem jr (rs rt rd : RegIndex) (sh : BitVec 5) : Statement (.jr rs rt rd sh) := of_layout _
theorem halt (rs rt rd : RegIndex) (sh : BitVec 5) : Statement (.halt rs rt rd sh) := of_layout _
theorem ori (rs rt : RegIndex) (imm : BitVec 16) : Statement (.ori rs rt imm) := of_layout _
theorem addi (rs rt : RegIndex) (imm : BitVec 16) : Statement (.addi rs rt imm) := of_layout _
theorem addiu (rs rt : RegIndex) (imm : BitVec 16) : Statement (.addiu rs rt imm) := of_layout _
theorem sltiu (rs rt : RegIndex) (imm : BitVec 16) : Statement (.sltiu rs rt imm) := of_layout _
theorem lui (rs rt : RegIndex) (imm : BitVec 16) : Statement (.lui rs rt imm) := of_layout _
theorem lw (rs rt : RegIndex) (imm : BitVec 16) : Statement (.lw rs rt imm) := of_layout _
theorem sw (rs rt : RegIndex) (imm : BitVec 16) : Statement (.sw rs rt imm) := of_layout _
theorem beq (rs rt : RegIndex) (imm : BitVec 16) : Statement (.beq rs rt imm) := of_layout _
theorem bne (rs rt : RegIndex) (imm : BitVec 16) : Statement (.bne rs rt imm) := of_layout _
theorem j (tgt : BitVec 26) : Statement (.j tgt) := of_layout _
theorem jal (tgt : BitVec 26) : Statement (.jal tgt) := of_layout _

end FieldRecovery

end Sys2Proof.Laws
end

