-- ==== Sys2Proof/Tests/Slice0.lean ====
section
/-! SUPPORT. Tests, each one step or one decoding, and a witness for every statement that has hypotheses. Expected values are
those of spec/95_test_vectors.md (the vector's id stands in the comment) or computed by hand from the rule named; every word
is written out from the layouts of spec/30_encoding.md with the default numerals of R71. -/

namespace Sys2Proof.Tests

open Sys2Proof Sys2Proof.Machine

/-! ### Helpers -/

/-- The vectors' machine: MEM_WORDS 256, PROGRAM_BASE 0, costs 1 to 8 in the order of R181. -/
def params : Params := { Params.default with memWords := 256, costs := ⟨1, 2, 3, 4, 5, 6, 7, 8⟩ }

/-- The vectors' "before": every register not listed is 0. -/
def start (regs : List (RegIndex × Word)) (mem : Memory) (pc : Word) : State :=
  .launch params (regs.foldl (fun x r => x.set r.1 r.2) (Vector.replicate 32 0)) mem pc

def nextOf : Host.Outcome State Fault Refusal → Option State
  | .next t    => some t
  | .fault _   => none
  | .refused _ => none

def faultOf : Host.Outcome State Fault Refusal → Option Fault
  | .next _    => none
  | .fault f   => some f
  | .refused _ => none

/-- Register `r`, `pc_sel` and `status` after `Step(w)`. -/
def regAfter (w : Word) (r : RegIndex) (s : State) : Option (Word × Option (PcSel × Status)) :=
  (nextOf (coreStep w s)).map fun t => (t.reg r, t.out.map fun o => (o.pcSel, o.status))

/-- Registers, memory, `pc_sel` and `status` after `Step(w)`: whether nothing but the outputs changed. -/
def onlyOutputs (w : Word) (s : State) : Option (Bool × Option (PcSel × Status)) :=
  (nextOf (coreStep w s)).map fun t =>
    (decide (t.regs = s.regs ∧ t.mem = s.mem), t.out.map fun o => (o.pcSel, o.status))

/-! ### Well-formedness: each check refuses an ill-formed term -/

theorem test_wf_sll_zero_refused : ¬ (Instr.sll 0 0 0 0).wf := by decide
theorem test_wf_sll_accepted : (Instr.sll 0 0 0 1).wf ∧ (Instr.sll 31 0 0 0).wf := by decide
theorem test_wf_keys_accepted : KeyTable.mips.wf := by decide
/-- R72: "every IMMEDIATE- and JUMP-family key is a nonzero opcode value". -/
theorem test_wf_keys_zero_opcode_refused : ¬ ({ KeyTable.mips with lw := 0 } : KeyTable).wf := by decide
/-- R72: "the opcode keys are pairwise different". -/
theorem test_wf_keys_double_opcode_refused : ¬ ({ KeyTable.mips with j := 0x23 } : KeyTable).wf := by decide
/-- R72: "the function keys are pairwise different". -/
theorem test_wf_keys_double_funct_refused : ¬ ({ KeyTable.mips with addu := 0x20 } : KeyTable).wf := by decide
/-- R71: SLL has function code 0. -/
theorem test_wf_keys_sll_refused : ¬ ({ KeyTable.mips with sll := 1 } : KeyTable).wf := by decide
theorem test_wf_params_accepted : Params.default.wf ∧ params.wf := by decide
/-- R8: MEM_WORDS is 1 to 2^31. -/
theorem test_wf_params_no_memory_refused : ¬ ({ params with memWords := 0 } : Params).wf := by decide
theorem test_wf_params_large_memory_refused : ¬ ({ params with memWords := 2 ^ 31 + 1 } : Params).wf := by decide
theorem test_wf_memory_refused :
    ¬ Memory.wf [(2, 1), (1, 1)] ∧ ¬ Memory.wf [(1, 1), (1, 2)] ∧ ¬ Memory.wf [(1, 0)] := by decide

/-! ### Decoding: a word of every constructor, written field by field (R61 to R63, R71) -/

theorem test_decode_nop : decode .mips 0b00000000000000000000000000000000 = .ok .nop := by decide
theorem test_decode_and : decode .mips (0b000000#6 ++ 0b00001#5 ++ 0b00010#5 ++ 0b00011#5 ++ 0b11111#5 ++ 0b100100#6) =
    .ok (.and 1 2 3 31) := by decide
theorem test_decode_or : decode .mips (0b000000#6 ++ 0b00001#5 ++ 0b00010#5 ++ 0b00011#5 ++ 0b00000#5 ++ 0b100101#6) =
    .ok (.or 1 2 3 0) := by decide
theorem test_decode_add : decode .mips (0b000000#6 ++ 0b00001#5 ++ 0b00010#5 ++ 0b00011#5 ++ 0b00000#5 ++ 0b100000#6) =
    .ok (.add 1 2 3 0) := by decide
theorem test_decode_sub : decode .mips (0b000000#6 ++ 0b00001#5 ++ 0b00010#5 ++ 0b00011#5 ++ 0b00000#5 ++ 0b100010#6) =
    .ok (.sub 1 2 3 0) := by decide
theorem test_decode_addu : decode .mips (0b000000#6 ++ 0b00001#5 ++ 0b00010#5 ++ 0b00011#5 ++ 0b00000#5 ++ 0b100001#6) =
    .ok (.addu 1 2 3 0) := by decide
theorem test_decode_sltu : decode .mips (0b000000#6 ++ 0b00001#5 ++ 0b00010#5 ++ 0b00011#5 ++ 0b00000#5 ++ 0b101011#6) =
    .ok (.sltu 1 2 3 0) := by decide
theorem test_decode_sll : decode .mips (0b000000#6 ++ 0b11111#5 ++ 0b00010#5 ++ 0b00011#5 ++ 0b00100#5 ++ 0b000000#6) =
    .ok (.sll 31 2 3 4) := by decide
theorem test_decode_srl : decode .mips (0b000000#6 ++ 0b00000#5 ++ 0b00010#5 ++ 0b00011#5 ++ 0b00100#5 ++ 0b000010#6) =
    .ok (.srl 0 2 3 4) := by decide
theorem test_decode_sra : decode .mips (0b000000#6 ++ 0b00000#5 ++ 0b00010#5 ++ 0b00011#5 ++ 0b00100#5 ++ 0b000011#6) =
    .ok (.sra 0 2 3 4) := by decide
theorem test_decode_jr : decode .mips (0b000000#6 ++ 0b11111#5 ++ 0b00000#5 ++ 0b00000#5 ++ 0b00000#5 ++ 0b001000#6) =
    .ok (.jr 31 0 0 0) := by decide
theorem test_decode_halt : decode .mips (0b000000#6 ++ 0b00001#5 ++ 0b00010#5 ++ 0b00011#5 ++ 0b00100#5 ++ 0b001100#6) =
    .ok (.halt 1 2 3 4) := by decide
theorem test_decode_ori : decode .mips (0b001101#6 ++ 0b00001#5 ++ 0b00010#5 ++ 0b1000000000000001#16) =
    .ok (.ori 1 2 0x8001) := by decide
theorem test_decode_addi : decode .mips (0b001000#6 ++ 0b00001#5 ++ 0b00010#5 ++ 0b1111111111111111#16) =
    .ok (.addi 1 2 0xFFFF) := by decide
theorem test_decode_addiu : decode .mips (0b001001#6 ++ 0b00001#5 ++ 0b00010#5 ++ 0b1000000000000000#16) =
    .ok (.addiu 1 2 0x8000) := by decide
theorem test_decode_sltiu : decode .mips (0b001011#6 ++ 0b00001#5 ++ 0b00010#5 ++ 0b1111111111111110#16) =
    .ok (.sltiu 1 2 0xFFFE) := by decide
theorem test_decode_lui : decode .mips (0b001111#6 ++ 0b00000#5 ++ 0b00010#5 ++ 0b1000000000000000#16) =
    .ok (.lui 0 2 0x8000) := by decide
theorem test_decode_lw : decode .mips (0b100011#6 ++ 0b00001#5 ++ 0b00010#5 ++ 0b0000000000000100#16) =
    .ok (.lw 1 2 4) := by decide
theorem test_decode_sw : decode .mips (0b101011#6 ++ 0b00001#5 ++ 0b00010#5 ++ 0b0000000000000100#16) =
    .ok (.sw 1 2 4) := by decide
theorem test_decode_beq : decode .mips (0b000100#6 ++ 0b00001#5 ++ 0b00010#5 ++ 0b0000000000010000#16) =
    .ok (.beq 1 2 16) := by decide
theorem test_decode_bne : decode .mips (0b000101#6 ++ 0b00001#5 ++ 0b00010#5 ++ 0b1111111111111100#16) =
    .ok (.bne 1 2 0xFFFC) := by decide
theorem test_decode_j : decode .mips (0b000010#6 ++ 0b10000000000000000000000001#26) = .ok (.j 0x2000001) := by decide
theorem test_decode_jal : decode .mips (0b000011#6 ++ 0b11111111111111111111110000#26) = .ok (.jal 0x3FFFFF0) := by decide
/-- DE3, DE4, DE9, DE15, DE18: the corners of R75 and R76. -/
theorem test_decode_corners : decode .mips 0x03E00000 = .ok (.sll 31 0 0 0) ∧
    decode .mips 0x04000020 = .decodeError 0x04000020 ∧ decode .mips 0xFC000000 = .decodeError 0xFC000000 ∧
    decode .mips 0x30000000 = .decodeError 0x30000000 ∧ decode .mips 0xAC000020 = .ok (.sw 0 0 0x20) := by decide
/-- The numerals can be replaced without touching a rule (R71): with KEY_LW = 0x30 the LW word changes, and 0x23 is illegal. -/
theorem test_decode_other_numerals :
    decode { KeyTable.mips with lw := 0x30 } 0xC0220004 = .ok (.lw 1 2 4) ∧
    decode { KeyTable.mips with lw := 0x30 } 0x8C220004 = .decodeError 0x8C220004 := by decide
theorem test_decodeTableWord : decodeTableWord 32 0x00221824 = some (.and 1 2 3 0) ∧ decodeTableWord 32 0 = some .nop ∧
    decodeTableWord 32 0xFFFFFFFF = none := by decide
/-- S2, S3, S4, S5: the sign extensions. -/
theorem test_sign_extension : sext16 0x8000 = 0xFFFF8000 ∧ sext16 0x7FFF = 0x00007FFF ∧
    sext26 0x2000001 = 0xFE000001 ∧ sext26 0x1FFFFFF = 0x01FFFFFF := by decide

/-! ### One step of each instruction -/

/-- S6. -/
theorem test_and : regAfter 0x00221824 3 (start [(1, 0x0F0F0F0F), (2, 0xF0F0F0F0), (3, 0x55555555)] [] 0) =
    some (0, some (.default, .normal)) := by decide
/-- RA14. -/
theorem test_and_shamt_ignored : regAfter 0x00221FE4 3 (start [(1, 0xF), (2, 5)] [] 0) =
    some (5, some (.default, .normal)) := by decide
/-- S6. -/
theorem test_or : regAfter 0x00221825 3 (start [(1, 0x0F0F0F0F), (2, 0xF0F0F0F0)] [] 0) =
    some (0xFFFFFFFF, some (.default, .normal)) := by decide
/-- S7. -/
theorem test_add_wraps : regAfter 0x00221820 3 (start [(1, 0x7FFFFFFF), (2, 1)] [] 0) =
    some (0x80000000, some (.default, .normal)) := by decide
/-- RA6. -/
theorem test_add_to_register_zero : regAfter 0x00220020 0 (start [(1, 3), (2, 4)] [] 0) =
    some (7, some (.default, .normal)) := by decide
/-- RA7. -/
theorem test_sub : regAfter 0x00221822 3 (start [(1, 5), (2, 7)] [] 0) =
    some (0xFFFFFFFE, some (.default, .normal)) := by decide
/-- RA8. -/
theorem test_sub_wraps : regAfter 0x00221822 3 (start [(1, 0x80000000), (2, 1)] [] 0) =
    some (0x7FFFFFFF, some (.default, .normal)) := by decide
/-- RA10. -/
theorem test_addu : onlyOutputs 0x00221821 (start [(1, 2), (2, 3), (3, 0x63)] [] 0) =
    some (true, some (.default, .normal)) := by decide
/-- RA11. -/
theorem test_sltu_below : regAfter 0x0022182B 3 (start [(1, 0x7FFFFFFF), (2, 0x80000000)] [] 0) =
    some (1, some (.default, .normal)) := by decide
/-- RA13. -/
theorem test_sltu_equal : regAfter 0x0022182B 3 (start [(1, 5), (2, 5), (3, 7)] [] 0) =
    some (0, some (.default, .normal)) := by decide
/-- SH4. -/
theorem test_sll_register_zero : regAfter 0x00000040 0 (start [(0, 5)] [] 0) =
    some (10, some (.default, .normal)) := by decide
/-- SH5. -/
theorem test_sll_rs_ignored : regAfter 0x03E21900 3 (start [(2, 1), (31, 0xFFFFFFFF)] [] 0) =
    some (0x10, some (.default, .normal)) := by decide
/-- SH6. -/
theorem test_srl : regAfter 0x00021902 3 (start [(2, 0x80000000)] [] 0) =
    some (0x08000000, some (.default, .normal)) := by decide
/-- SH7. -/
theorem test_srl_by_zero : regAfter 0x00021802 3 (start [(2, 0x80000001)] [] 0) =
    some (0x80000001, some (.default, .normal)) := by decide
/-- SH10. -/
theorem test_sra : regAfter 0x00021903 3 (start [(2, 0x80000000)] [] 0) =
    some (0xF8000000, some (.default, .normal)) := by decide
/-- SH14. -/
theorem test_sra_positive : regAfter 0x00021903 3 (start [(2, 0x7FFFFFF0)] [] 0) =
    some (0x07FFFFFF, some (.default, .normal)) := by decide
/-- IA1. -/
theorem test_ori : regAfter 0x34228001 2 (start [(1, 0x12340000)] [] 0) =
    some (0x12348001, some (.default, .normal)) := by decide
/-- IA5. -/
theorem test_addi_wraps : regAfter 0x2022FFFF 2 (start [(1, 0x80000000)] [] 0) =
    some (0x7FFFFFFF, some (.default, .normal)) := by decide
/-- IA7. -/
theorem test_addi_in_place : regAfter 0x20217FFF 1 (start [(1, 1)] [] 0) =
    some (0x8000, some (.default, .normal)) := by decide
/-- IA8. -/
theorem test_addiu : regAfter 0x24228000 2 (start [(1, 0x8000), (2, 5)] [] 0) =
    some (0, some (.default, .normal)) := by decide
/-- IA11. -/
theorem test_sltiu_below : regAfter 0x2C22FFFF 2 (start [(1, 0xFFFE)] [] 0) =
    some (1, some (.default, .normal)) := by decide
/-- IA13. -/
theorem test_sltiu_raw_immediate : regAfter 0x2C22FFFF 2 (start [(1, 0x10000), (2, 5)] [] 0) =
    some (0, some (.default, .normal)) := by decide
/-- IA17. -/
theorem test_lui : regAfter 0x3C22FFFF 2 (start [(1, 0x1234), (2, 0xFFFF)] [] 0) =
    some (0xFFFF0000, some (.default, .normal)) := by decide
/-- LS1. -/
theorem test_lw : regAfter 0x8C220004 2 (start [(1, 0x64)] [(104, 0xDEADBEEF)] 0) =
    some (0xDEADBEEF, some (.default, .normal)) := by decide
/-- LS4. -/
theorem test_lw_raw_displacement : faultOf (coreStep 0x8C228000 (start [(1, 0x8000), (2, 5)] [(0, 0x22222222)] 0)) =
    some (.memIndex 0x00010000) := by decide
/-- LS11: data and base in one register. -/
theorem test_sw : (nextOf (coreStep 0xAC210000 (start [(1, 3)] [] 0))).map (·.mem) = some [(3, 3)] := by decide
/-- LS9. -/
theorem test_sw_outside : faultOf (coreStep 0xAC220000 (start [(1, 0x100), (2, 5)] [] 0)) =
    some (.memIndex 0x100) := by decide
/-- BR3: the raw offset. -/
theorem test_beq_taken : onlyOutputs 0x1022FFFC (start [(1, 5), (2, 5)] [] 0x20) =
    some (true, some (.redirect 0x0001001C, .normal)) := by decide
/-- BR2. -/
theorem test_beq_not_taken : onlyOutputs 0x10220010 (start [(1, 5), (2, 6)] [] 0x20) =
    some (true, some (.default, .branchNotTaken)) := by decide
/-- BR4: the signed offset. -/
theorem test_bne_taken : onlyOutputs 0x1422FFFC (start [(1, 5), (2, 6)] [] 0x20) =
    some (true, some (.redirect 0x1C, .normal)) := by decide
/-- BR5. -/
theorem test_bne_not_taken : onlyOutputs 0x1422FFFC (start [(1, 5), (2, 5)] [] 0x20) =
    some (true, some (.default, .branchNotTaken)) := by decide
/-- JP4: J adds no base. -/
theorem test_j : onlyOutputs 0x0BFFFFFC { start [] [] 0 with params := { params with programBase := 0x00400000 } } =
    some (true, some (.redirect 0xFFFFFFFC, .normal)) := by decide
/-- JP5. -/
theorem test_jal : regAfter 0x0C000018 31 { start [] [] 0x104 with params := { params with programBase := 0x100 } } =
    some (0x104, some (.redirect 0x118, .normal)) := by decide
/-- JP8: base plus field wraps to 0. -/
theorem test_jal_wraps : regAfter 0x0E000000 31 { start [] [] 8 with params := { params with programBase := 0x02000000 } } =
    some (8, some (.redirect 0, .normal)) := by decide
/-- JP11. -/
theorem test_jr : onlyOutputs 0x003FFFC8 (start [(1, 0x44), (31, 9)] [] 0) =
    some (true, some (.redirect 0x44, .normal)) := by decide
/-- NH1. -/
theorem test_nop : onlyOutputs 0 (start [(1, 1)] [] 0x10) = some (true, some (.default, .normal)) := by decide
/-- NH3. -/
theorem test_halt : onlyOutputs 0x03FFFFCC (start [(31, 1)] [] 0x10) = some (true, some (.default, .halt)) := by decide

/-! ### One step of the driver -/

/-- Registers apart, what a driver step leaves: PC, cycle total, run status. -/
def driverAfter (s : State) : Option (Word × Nat × RunStatus) := (nextOf (step s)).map fun t => (t.pc, t.cycles, t.run)

/-- Step 1 of P1: `ADDI $1,$0,5`, the default advance, CYC_REGISTER booked. -/
theorem test_step_advances : driverAfter (start [] [(0, 0x20010005)] 0) = some (4, 1, .running) := by decide
/-- Step 5 of P1: BNE taken from 0x10 to 8, with no further 4 added; CYC_BRANCH booked. -/
theorem test_step_redirects : driverAfter (start [(1, 4)] [(4, 0x1420FFF8)] 0x10) = some (8, 4, .running) := by decide
/-- Step 17 of P1: BNE not taken; CYC_BRANCH_NOT_TAKEN booked (R182). -/
theorem test_step_not_taken : driverAfter (start [] [(4, 0x1420FFF8)] 0x10) = some (0x14, 8, .running) := by decide
/-- Step 18 of P1: the run ends with the PC at the HALT (R225). -/
theorem test_step_halts : driverAfter (start [] [(5, 0x0000000C)] 0x14) = some (0x14, 7, .halted) := by decide
/-- R223: a misaligned, a negative and a too large offset. -/
theorem test_step_fetch_faults : faultOf (step (start [] [] 2)) = some (.fetch 2) ∧
    faultOf (step (start [] [] 0x80000000)) = some (.fetch 0x80000000) ∧
    faultOf (step (start [] [] 0x400)) = some (.fetch 0x400) ∧ faultOf (step (start [] [] 0x3FC)) = none := by decide
/-- PC_IN_OFFSET = 4 (R8, D11): JAL at 0x10 links 0x14. -/
theorem test_pc_in_offset : regAfter 0x0C000018 31
    { start [] [] 0x10 with params := { params with pcInOffset := .four } } = some (0x14, some (.redirect 0x18, .normal)) := by
  decide
/-- A placed word is the next one run, from reset and from a state whose run has ended outside Memory. -/
theorem test_withFetchWord :
    ((nextOf (step (State.reset.withFetchWord 32 0x2001FFFF))).map (·.reg 1)) = some 0xFFFFFFFF ∧
    ((nextOf (step ({ start [] [] 2 with run := .halted }.withFetchWord 32 0x20010005))).map (·.reg 1)) = some 5 := by decide
/-- Memory keeps its canonical form: writing what an unlisted element reads as removes the cell. -/
theorem test_memory_write : Memory.write [(1, 7), (3, 9)] 2 8 = [(1, 7), (2, 8), (3, 9)] ∧
    Memory.write [(1, 7), (3, 9)] 1 0 = [(3, 9)] ∧ Memory.write [(1, 7)] 1 8 = [(1, 8)] := by decide

theorem test_reset_memory_wf : Memory.wf State.reset.mem := by decide

/-! ### Witnesses: for each statement with hypotheses, values that meet them, at the ends of each clause's range -/

/-- The hypotheses on a load or store index inside Memory. -/
abbrev indexLegal (s : State) (rs : RegIndex) (imm : BitVec 16) (idx : Word) : Prop :=
  idx = s.reg rs + zext16 imm ∧ 0 ≤ idx.toInt ∧ idx.toInt < s.params.memWords

/-- The hypotheses on a load or store index outside Memory. -/
abbrev indexIllegal (s : State) (rs : RegIndex) (imm : BitVec 16) (idx : Word) : Prop :=
  idx = s.reg rs + zext16 imm ∧ (idx.toInt < 0 ∨ (s.params.memWords : Int) ≤ idx.toInt)

/-- The state with these registers and `w` in element 0 fetches `w`, which decodes to `i`. -/
abbrev stepRuns (w : Word) (i : Instr) (regs : List (RegIndex × Word)) : Prop :=
  (start regs [(0, w)] 0).run = .running ∧ (start regs [(0, w)] 0).fetchElement 0 = some 0 ∧
    decode .mips ((start regs [(0, w)] 0).mem.read 0) = .ok i

/-- `pc - PROGRAM_BASE`. -/
abbrev pcOffset (pc base : Word) : Word := pc - base

/-- A running state whose PC maps to `w`. -/
abbrev fetches (s : State) (w : Word) : Prop :=
  s.run = .running ∧ (s.fetchElement s.pc).map s.mem.read = some w ∧ s.params.pcInOffset = .zero

/-- The state after the HALT at element 0. -/
def haltedState : State :=
  { start [] [(0, 0x0000000C)] 0 with
    run := .halted, cycles := 7, out := some ⟨.default, .halt, .halt, 7⟩ }

theorem witness_DecodeOfEncodeIsTheInstruction :
    KeyTable.mips.wf ∧ (Instr.sll 0 0 0 1).wf ∧ (Instr.sll 31 31 31 31).wf ∧ (Instr.j 0x3FFFFFF).wf := by decide
theorem witness_EncodeOfDecodeIsTheWord :
    KeyTable.mips.wf ∧ decode .mips 0x03E00000 = .ok (.sll 31 0 0 0) ∧ decode .mips 0xAC000020 = .ok (.sw 0 0 0x20) := by decide
/-- Each step of R75: the zero word, a function code, an opcode, no match. -/
theorem witness_DecodeFollowsTheStepOrder :
    KeyTable.mips.wf ∧ decodeOp .mips 0 = some .nop ∧ decodeOp .mips 0x40 = some .sll ∧ decodeOp .mips 0xAC000020 = some .sw ∧
    decodeOp .mips 0x04000020 = none := by decide
theorem witness_OnlyTheZeroWordIsNop :
    KeyTable.mips.wf ∧ opcodeField 0 = 0 ∧ functField 0 = 0 ∧ opcodeField 0x03E00000 = 0 ∧ functField 0x03E00000 = 0 := by decide
theorem witness_AndWritesTheBitwiseAnd :
    KeyTable.mips.wf ∧ opcodeField 0x00221824 = 0 ∧ functField 0x00221824 = KeyTable.mips.and := by decide
theorem witness_OrWritesTheBitwiseOr :
    KeyTable.mips.wf ∧ opcodeField 0x00221825 = 0 ∧ functField 0x00221825 = KeyTable.mips.or := by decide
theorem witness_AddWritesTheWrappedSum :
    KeyTable.mips.wf ∧ opcodeField 0x00221820 = 0 ∧ functField 0x00221820 = KeyTable.mips.add := by decide
theorem witness_SubWritesTheWrappedDifference :
    KeyTable.mips.wf ∧ opcodeField 0x00221822 = 0 ∧ functField 0x00221822 = KeyTable.mips.sub := by decide
theorem witness_AdduChangesNothing :
    KeyTable.mips.wf ∧ opcodeField 0x00221821 = 0 ∧ functField 0x00221821 = KeyTable.mips.addu := by decide
theorem witness_SltuWritesTheUnsignedComparison :
    KeyTable.mips.wf ∧ opcodeField 0x0022182B = 0 ∧ functField 0x0022182B = KeyTable.mips.sltu := by decide
theorem witness_SllShiftsLeftWithZeros :
    KeyTable.mips.wf ∧ opcodeField 0x00000040 = 0 ∧ functField 0x00000040 = KeyTable.mips.sll ∧ (0x40 : Word) ≠ 0 := by decide
theorem witness_SrlShiftsRightWithZeros :
    KeyTable.mips.wf ∧ opcodeField 0x00021902 = 0 ∧ functField 0x00021902 = KeyTable.mips.srl := by decide
theorem witness_SraShiftsRightWithTheSign :
    KeyTable.mips.wf ∧ opcodeField 0x00021903 = 0 ∧ functField 0x00021903 = KeyTable.mips.sra := by decide
theorem witness_JrJumpsToTheRegister :
    KeyTable.mips.wf ∧ opcodeField 0x03E00008 = 0 ∧ functField 0x03E00008 = KeyTable.mips.jr := by decide
theorem witness_HaltSignalsAndChangesNothing :
    KeyTable.mips.wf ∧ opcodeField 0x03FFFFCC = 0 ∧ functField 0x03FFFFCC = KeyTable.mips.halt := by decide
theorem witness_OriWritesTheOrWithTheRawImmediate : KeyTable.mips.wf ∧ opcodeField 0x34228001 = KeyTable.mips.ori := by decide
theorem witness_AddiAddsTheSignExtendedImmediate : KeyTable.mips.wf ∧ opcodeField 0x2022FFFF = KeyTable.mips.addi := by decide
theorem witness_AddiuWritesWhatAddiWrites : KeyTable.mips.wf ∧ opcodeField 0x24228000 = KeyTable.mips.addiu := by decide
theorem witness_SltiuComparesWithTheRawImmediate : KeyTable.mips.wf ∧ opcodeField 0x2C22FFFF = KeyTable.mips.sltiu := by decide
theorem witness_LuiLoadsTheUpperHalf : KeyTable.mips.wf ∧ opcodeField 0x3C028000 = KeyTable.mips.lui := by decide
theorem witness_JJumpsToTheSignedField : KeyTable.mips.wf ∧ opcodeField 0x0A000001 = KeyTable.mips.j := by decide
theorem witness_JalLinksAndJumpsFromTheBase : KeyTable.mips.wf ∧ opcodeField 0x0C000018 = KeyTable.mips.jal := by decide
/-- The first element, reached by a wrapping sum (LS5), and the last. -/
theorem witness_LwLoadsTheIndexedWord :
    KeyTable.mips.wf ∧ opcodeField 0x8C220001 = KeyTable.mips.lw ∧
    indexLegal (start [(1, 0xFFFFFFFF)] [] 0) 1 1 0 ∧ indexLegal (start [(1, 254)] [] 0) 1 1 255 := by decide
theorem witness_SwStoresTheIndexedWord :
    KeyTable.mips.wf ∧ opcodeField 0xAC220001 = KeyTable.mips.sw ∧ Memory.wf [(3, 1)] ∧
    indexLegal (start [(1, 0xFFFFFFFF)] [(3, 1)] 0) 1 1 0 ∧ indexLegal (start [(1, 254)] [(3, 1)] 0) 1 1 255 := by decide
/-- The first index past the end, index -1, and the least signed index. -/
theorem witness_AccessOutsideMemoryFaults :
    indexIllegal (start [(1, 255)] [] 0) 1 1 256 ∧ indexIllegal (start [(1, 0xFFFFFFFE)] [] 0) 1 1 0xFFFFFFFF ∧
    indexIllegal (start [(1, 0x7FFFFFFF)] [] 0) 1 1 0x80000000 := by decide
theorem witness_IndexIsLegalInsideMemoryOnly :
    params.memWords ≤ 2 ^ 31 ∧ (start [] [] 0).element 255 = some 255 ∧ (start [] [] 0).element 256 = none := by decide
theorem witness_WriteThenReadOfMemory :
    Memory.wf [(3, 1)] ∧ (start [] [(3, 1)] 0).element 0 = some 0 ∧ (start [] [(3, 1)] 0).element 255 = some 255 ∧
    (start [] [(3, 1)] 0).element 256 = none := by decide
theorem witness_BeqBranchesByTheRawOffset :
    KeyTable.mips.wf ∧ opcodeField 0x1022FFFC = KeyTable.mips.beq ∧
    (start [(1, 5), (2, 5)] [] 0).reg 1 = (start [(1, 5), (2, 5)] [] 0).reg 2 ∧
    (start [(1, 5), (2, 6)] [] 0).reg 1 ≠ (start [(1, 5), (2, 6)] [] 0).reg 2 := by decide
theorem witness_BneBranchesByTheSignedOffset :
    KeyTable.mips.wf ∧ opcodeField 0x1422FFFC = KeyTable.mips.bne ∧
    (start [(1, 5), (2, 6)] [] 0).reg 1 ≠ (start [(1, 5), (2, 6)] [] 0).reg 2 ∧
    (start [(1, 5), (2, 5)] [] 0).reg 1 = (start [(1, 5), (2, 5)] [] 0).reg 2 := by decide
theorem witness_NopChangesNothing : KeyTable.mips.wf ∧ decode .mips 0 = .ok .nop := by decide
theorem witness_InstructionsKeepTheirFrame :
    (∃ t, exec (.add 1 2 3 0) (start [] [] 0) = .next t) ∧ (∃ t, exec (.sw 1 2 255) (start [] [] 0) = .next t) ∧
    ∃ t, exec (.jal 0) (start [] [] 0) = .next t := ⟨⟨_, rfl⟩, ⟨_, rfl⟩, ⟨_, rfl⟩⟩
theorem witness_OnlyTheListedRegistersAreRead :
    (∀ r ∈ (Instr.add 1 2 3 0).reads, (start [(1, 5), (9, 9)] [] 0).regs[r] = (start [(1, 5)] [] 0).reg r) ∧
    (∃ t, exec (.add 1 2 3 0) (start [(1, 5)] [] 0) = .next t) ∧
    ∃ f, exec (.lw 1 2 0) (start [(1, 256)] [] 0) = .fault f := ⟨by decide, ⟨_, rfl⟩, ⟨_, rfl⟩⟩
theorem witness_OnlyLoadsReadAndOnlyStoresWriteMemory :
    (∃ t, exec (.lw 1 2 0) (start [] [] 0) = .next t) ∧ ∃ t, exec (.sw 1 2 0) (start [] [] 0) = .next t := ⟨⟨_, rfl⟩, ⟨_, rfl⟩⟩
theorem witness_OnlyBranchesAndJalReadThePc :
    (∃ t, exec (.j 5) (start [] [] 0) = .next t) ∧ ∃ f, exec (.sw 1 2 0) (start [(1, 256)] [] 0) = .fault f := ⟨⟨_, rfl⟩, ⟨_, rfl⟩⟩
theorem witness_NextPcTable :
    (∃ t, exec (.beq 1 1 0xFFFF) (start [] [] 0) = .next t) ∧ ∃ t, exec (.nop) (start [] [] 0) = .next t := ⟨⟨_, rfl⟩, ⟨_, rfl⟩⟩
theorem witness_StatusTable :
    (∃ t, exec (.bne 1 1 4) (start [] [] 0) = .next t) ∧ ∃ t, exec (.halt 0 0 0 0) (start [] [] 0) = .next t := ⟨⟨_, rfl⟩, ⟨_, rfl⟩⟩
theorem witness_CostFollowsTheTimingClass :
    (∃ t, exec (.lw 1 2 4) (start [] [] 0) = .next t) ∧ ∃ t, exec (.jr 31 0 0 0) (start [] [] 0) = .next t := ⟨⟨_, rfl⟩, ⟨_, rfl⟩⟩
theorem witness_JrAfterJalReturnsToTheJal : (start [] [] 0x104).params.pcInOffset = .zero := by decide
theorem witness_PortsMatchTheCoreStep :
    (corePorts 7 0xFFFFFFFF (start [] [] 0)).error ≠ .none ∧ (corePorts 7 0x8C220000 (start [(1, 256)] [] 0)).error ≠ .none := by decide
/-- Each clause: a redirect, a HALT, the default advance, a branch not taken, a fault. -/
theorem witness_StepRunsTheDecodedInstruction :
    stepRuns 0x0C000018 (.jal 0x18) [] ∧ stepRuns 0x03FFFFCC (.halt 31 31 31 31) [] ∧ stepRuns 0x20010005 (.addi 0 1 5) [] ∧
    stepRuns 0x14220010 (.bne 1 2 16) [] ∧ stepRuns 0x8C220000 (.lw 1 2 0) [(1, 256)] ∧
    faultOf (exec (.lw 1 2 0) (start [(1, 256)] [(0, 0x8C220000)] 0)) = some (.memIndex 256) := by decide
/-- The first and the last element, and an offset that is misaligned, negative, too large. -/
theorem witness_FetchMapsThePcToAnElement :
    pcOffset 0x400 0x400 = 0 ∧ pcOffset 0x7FC 0x400 = 0x3FC ∧ (0x3FC#32).toNat % 4 = 0 ∧ 0 ≤ (0x3FC#32).toInt ∧
    (0x3FC#32).toInt / 4 < params.memWords ∧ pcOffset 0x401 0x400 = 1 ∧ (1#32).toNat % 4 ≠ 0 ∧
    pcOffset 0x3FC 0x400 = 0xFFFFFFFC ∧ (0xFFFFFFFC#32).toInt < 0 ∧ (params.memWords : Int) ≤ (0x400#32).toInt / 4 := by decide
theorem witness_ErrorsComeInTheFixedOrder :
    (start [] [] 2).run = .running ∧ faultOf (step (start [] [] 2)) = some (.fetch 2) ∧
    faultOf (step (start [] [(0, 0xFFFFFFFF)] 0)) = some (.decodeError 0xFFFFFFFF) ∧
    faultOf (step (start [(1, 256)] [(0, 0xAC220000)] 0)) = some (.memIndex 256) := by decide
theorem witness_EveryLegalLaunchMeetsTheInvariant :
    ({ params with memWords := 1 } : Params).wf ∧ ({ params with memWords := 2 ^ 31 } : Params).wf ∧ Memory.wf [(0, 5)] ∧
    ∀ c ∈ [((0, 5) : Cell)], c.1 < 1 := by decide
/-- A store to the last element, and an ended run. -/
theorem witness_StepKeepsTheInvariant :
    (start [(1, 255), (2, 9)] [(0, 0xAC220000)] 0).Inv ∧ (nextOf (step (start [(1, 255), (2, 9)] [(0, 0xAC220000)] 0))).isSome ∧
    haltedState.Inv ∧ (nextOf (step haltedState)).isSome := by decide
theorem witness_OnlyHaltEndsARun :
    (start [] [(0, 0x0000000C)] 0).run = .running ∧
    (nextOf (step (start [] [(0, 0x0000000C)] 0))).map (·.run) = some .halted ∧
    (nextOf (step (start [] [] 0))).map (·.run) = some .running := by decide
theorem witness_TheEndOfARunIsFinal :
    runEnd 1 (start [] [(0, 0x0000000C)] 0) = .halted haltedState ∧ runEnd 1 (start [] [] 2) = .faulted (.fetch 2) (start [] [] 2) := by decide
theorem witness_BranchesToThemselvesNeverEnd :
    fetches (start [] [(16, 0x10000000)] 0x40) 0x10000000 ∧ decode .mips 0x10000000 = .ok (.beq 0 0 0) ∧
    fetches (start [] [(16, 0x08000040)] 0x40) 0x08000040 ∧ decode .mips 0x08000040 = .ok (.j 0x40) ∧ sext26 0x40 = 0x40 := by decide
theorem witness_StoresAreSeenByLaterFetches :
    Memory.wf [(0, 5)] ∧ (start [(1, 255)] [(0, 5)] 0).element ((start [(1, 255)] [(0, 5)] 0).effectiveIndex 1 0) = some 255 ∧
    (start [(1, 255)] [(0, 5)] 0).fetchElement 0x3FC = some 255 := by decide
theorem witness_CyclesAreOnlyAStatistic :
    (nextOf (step (start [] [] 0))).isSome ∧ (faultOf (step (start [] [] 2))).isSome := by decide
theorem witness_APlacedWordIsFetchedNext :
    Memory.wf (start [] [(0, 5)] 2).mem ∧ (start [] [(0, 5)] 2).fetchElement 2 = none := by decide

end Sys2Proof.Tests
end

section
/-! Proofs of the family of spec/10_state.md: what a completed instruction changes and leaves, and the invariant. -/

namespace Sys2Proof.Machine

/-! ### What a completed instruction has done -/

/-- A load that completes read an element of Memory (R130). -/
theorem execLw_next {rs rt : RegIndex} {imm : BitVec 16} {s t : State} (h : execLw rs rt imm s = .next t) :
    ∃ a, s.element (s.effectiveIndex rs imm) = some a ∧
      t = (s.writeReg rt (s.mem.read a)).complete .lw .default .normal := by
  cases he : s.element (s.effectiveIndex rs imm) with
  | none => rw [execLw_none he] at h; cases h
  | some a => rw [execLw_some he] at h; cases h; exact ⟨a, rfl, rfl⟩

/-- A store that completes wrote an element of Memory (R131). -/
theorem execSw_next {rs rt : RegIndex} {imm : BitVec 16} {s t : State} (h : execSw rs rt imm s = .next t) :
    ∃ a, s.element (s.effectiveIndex rs imm) = some a ∧
      t = ({ s with mem := s.mem.write a (s.reg rt) } : State).complete .sw .default .normal := by
  cases he : s.element (s.effectiveIndex rs imm) with
  | none => rw [execSw_none he] at h; cases h
  | some a => rw [execSw_some he] at h; cases h; exact ⟨a, rfl, rfl⟩

/-- The three ways to complete, tied to the instruction: beside the outputs it changes the register of its "writes" column
(R25), or nothing, or, being SW, one element (R38). -/
theorem exec_next_cases {i : Instr} {s t : State} (h : exec i s = .next t) :
    (∃ r v o, i.writes = some r ∧ t = { s with regs := s.regs.set r v, out := some o }) ∨
    (∃ o, i.writes = none ∧ t = { s with out := some o }) ∨
    (∃ rs rt imm a o, i = .sw rs rt imm ∧ s.element (s.effectiveIndex rs imm) = some a ∧
      t = { s with mem := s.mem.write a (s.reg rt), out := some o }) := by
  cases i
  case lw rs rt imm =>
    obtain ⟨a, -, rfl⟩ := execLw_next h
    exact .inl ⟨rt, _, _, rfl, rfl⟩
  case sw rs rt imm =>
    obtain ⟨a, ha, rfl⟩ := execSw_next h
    exact .inr (.inr ⟨rs, rt, imm, a, _, rfl, ha, rfl⟩)
  case nop | addu | jr | halt | beq | bne | j =>
    cases h
    exact .inr (.inl ⟨_, rfl, rfl⟩)
  all_goals
    cases h
    exact .inl ⟨_, _, _, rfl, rfl⟩

/-- An instruction that is not LW completes with any other memory too, and nothing but memory is then different (R38). -/
theorem exec_next_with_mem {i : Instr} {s t : State} (hlw : ∀ rs rt imm, i ≠ .lw rs rt imm) (h : exec i s = .next t)
    (m : Memory) : ∃ m', exec i { s with mem := m } = .next { t with mem := m' } := by
  cases i
  case lw rs rt imm => exact absurd rfl (hlw rs rt imm)
  case sw rs rt imm =>
    obtain ⟨a, ha, rfl⟩ := execSw_next h
    exact ⟨m.write a (s.reg rt), execSw_some (s := { s with mem := m }) ha⟩
  all_goals
    cases h
    exact ⟨m, rfl⟩

/-! ### The outputs of a completed instruction are consistent -/

/-- Status NORMAL fits every operation but HALT, whatever the PC output. -/
theorem Outputs.consistent_normal (c : CostTable) {op : Op} (sel : PcSel) (h : op.timingClass ≠ .halt) :
    Outputs.consistent c ⟨sel, .normal, op.timingClass, c.cycleCost op⟩ :=
  ⟨rfl, nofun, ⟨nofun, fun e => absurd e h⟩, nofun⟩

/-- The status and PC output of a branch fit each other: not taken is BRANCH_NOT_TAKEN without a redirect (R140, R195). -/
theorem Outputs.consistent_branch (c : CostTable) {op : Op} (taken : Bool) (target : Word)
    (h : op.timingClass = .branch) :
    Outputs.consistent c ⟨branchPcSel taken target, branchStatus taken, op.timingClass, c.cycleCost op⟩ := by
  cases taken with
  | true => exact Outputs.consistent_normal c _ (by rw [h]; decide)
  | false => exact ⟨rfl, fun _ => ⟨h, rfl⟩, ⟨nofun, fun e => by rw [h] at e; cases e⟩, nofun⟩

theorem exec_outputs_consistent {i : Instr} {s t : State} (h : exec i s = .next t) :
    ∀ o ∈ t.out, o.consistent s.params.costs := by
  suffices ∃ o, t.out = some o ∧ o.consistent s.params.costs by
    obtain ⟨o, ho, hc⟩ := this
    intro o' h'
    cases ho.symm.trans h'
    exact hc
  cases i
  case lw rs rt imm =>
    obtain ⟨a, -, rfl⟩ := execLw_next h
    exact ⟨_, rfl, Outputs.consistent_normal _ _ (by decide)⟩
  case sw rs rt imm =>
    obtain ⟨a, -, rfl⟩ := execSw_next h
    exact ⟨_, rfl, Outputs.consistent_normal _ _ (by decide)⟩
  case beq | bne =>
    cases h
    exact ⟨_, rfl, Outputs.consistent_branch _ _ _ rfl⟩
  case halt =>
    cases h
    exact ⟨_, rfl, rfl, nofun, ⟨fun _ => rfl, fun _ => rfl⟩, fun _ => rfl⟩
  all_goals
    cases h
    exact ⟨_, rfl, Outputs.consistent_normal _ _ (by decide)⟩

/-! ### The invariant -/

/-- The core keeps the invariant while the run goes on. -/
theorem exec_keeps_inv {i : Instr} {s t : State} (hs : s.Inv) (hrun : s.run = .running) (h : exec i s = .next t) :
    t.Inv ∧ t.params = s.params := by
  obtain ⟨hp, hwf, hbound, -, -⟩ := hs
  have hout := exec_outputs_consistent h
  have hgo : s.run ≠ .halted := by rw [hrun]; decide
  obtain ⟨r, v, o, -, rfl⟩ | ⟨o, -, rfl⟩ | ⟨rs, rt, imm, a, o, -, ha, rfl⟩ := exec_next_cases h
  · exact ⟨⟨hp, hwf, hbound, hout, fun e => absurd e hgo⟩, rfl⟩
  · exact ⟨⟨hp, hwf, hbound, hout, fun e => absurd e hgo⟩, rfl⟩
  · exact ⟨⟨hp, Memory.wf_write hwf _ _, Memory.bound_write hbound (State.element_lt ha) _, hout,
      fun e => absurd e hgo⟩, rfl⟩

/-- The driver ends a run on a HALT only (R225). -/
theorem State.settle_run_halted {s : State} (h : s.settle.run = .halted) :
    s.run = .halted ∨ ∃ o ∈ s.out, o.status = .halt := by
  cases ho : s.out with
  | none => left; simpa [State.settle, ho] using h
  | some o =>
    rw [State.settle_of_out ho] at h
    by_cases hst : o.status = .halt
    · exact .inr ⟨o, rfl, hst⟩
    · left; simpa [hst] using h

theorem State.settle_keeps_inv {s : State} (hs : s.Inv) : s.settle.Inv := by
  obtain ⟨hp, hwf, hbound, hout, hend⟩ := hs
  simp only [State.Inv, State.settle_params, State.settle_mem, State.settle_out]
  exact ⟨hp, hwf, hbound, hout, fun h => (State.settle_run_halted h).elim hend id⟩

/-! ### The obligations -/

/-- Settles O53: the core keeps the invariant, and so does the driver's part of the step. -/
theorem stepKeepsTheInvariant : Obligations.StepKeepsTheInvariant := by
  intro s t hs h
  obtain ⟨-, rfl⟩ | ⟨a, i, u, hrun, -, -, he, rfl⟩ := step_next h
  · exact ⟨hs, rfl⟩
  · obtain ⟨hu, hp⟩ := exec_keeps_inv hs hrun he
    exact ⟨State.settle_keeps_inv hu, u.settle_params.trans hp⟩

/-- Settles O36: in each way to complete, only the named register or SW's element is another. -/
theorem instructionsKeepTheirFrame : Obligations.InstructionsKeepTheirFrame := by
  intro i s t h
  obtain ⟨r, v, o, hw, rfl⟩ | ⟨o, -, rfl⟩ | ⟨rs, rt, imm, a, o, rfl, -, rfl⟩ := exec_next_cases h
  · exact ⟨fun q hq => s.writeReg_reg_ne v fun e => hq (e ▸ hw), fun _ => rfl, rfl, rfl, rfl, rfl⟩
  · exact ⟨fun _ _ => rfl, fun _ => rfl, rfl, rfl, rfl, rfl⟩
  · exact ⟨fun _ _ => rfl, fun hsw => absurd rfl (hsw rs rt imm), rfl, rfl, rfl, rfl⟩

/-- Settles O38, from the frame of O36 and the independence of memory. -/
theorem onlyLoadsReadAndOnlyStoresWriteMemory : Obligations.OnlyLoadsReadAndOnlyStoresWriteMemory := by
  intro i s t h
  obtain ⟨-, hmem, -⟩ := instructionsKeepTheirFrame i s t h
  refine ⟨fun hsw a => by rw [hmem hsw], fun hlw m => ?_⟩
  obtain ⟨m', hm'⟩ := exec_next_with_mem hlw h m
  exact ⟨_, hm', rfl, rfl⟩

/-- Settles O35, by the two laws of the register file (R22). -/
theorem everyRegisterIsOrdinary : Obligations.EveryRegisterIsOrdinary := by
  intro s i r v
  by_cases h : r = i
  · rw [if_pos h, h, State.writeReg_reg_self]
  · rw [if_neg h, State.writeReg_reg_ne s v h]

end Sys2Proof.Machine
end

section
/-! Proofs of the family of spec/30_encoding.md: decoding and encoding undo each other, the zero word, sign extension. -/

namespace Sys2Proof

/-! ### What decoding answers -/

/-- Decoding answers the operation found, with the fields of the word (R75). -/
theorem decode_eq_ok {k : KeyTable} {w : Word} {i : Instr} :
    decode k w = .ok i ↔ ∃ op, decodeOp k w = some op ∧ Instr.ofOp op w = i := by
  unfold decode
  cases decodeOp k w <;> simp

/-- The zero word is NOP before any lookup (R75 step 1). -/
theorem decode_zero (k : KeyTable) : decode k 0 = .ok .nop := rfl

/-- The inversion of the operation lookup under R72: the zero word, a function code, an opcode (R75). -/
theorem decodeOp_cases {k : KeyTable} (hk : k.wf) {w : Word} {op : Op} (h : decodeOp k w = some op) :
    (w = 0 ∧ op = .nop) ∨
    (w ≠ 0 ∧ opcodeField w = 0 ∧ op.family = .register ∧ k.key op = some (functField w)) ∨
    (op.family ≠ .register ∧ k.key op = some (opcodeField w)) := by
  unfold decodeOp at h
  split_ifs at h with hw ho
  · exact .inl ⟨hw, (Option.some.inj h).symm⟩
  · exact .inr (.inr ((hk.lookupOpcode_eq _ _).mp h))
  · obtain ⟨hf, hkey⟩ := (hk.lookupFunct_eq _ _).mp h
    exact .inr (.inl ⟨hw, not_not.mp ho, hf, hkey⟩)

/-! ### The word of an instruction holds the key of its operation -/

/-- A REGISTER word has opcode zero and the operation's function code (R61). -/
theorem encode_keyed_by_funct {k : KeyTable} {i : Instr} (hf : i.op.family = .register) (hn : i ≠ .nop) :
    opcodeField (encode k i) = 0 ∧ k.key i.op = some (functField (encode k i)) := by
  cases i
  case nop => exact absurd rfl hn
  case ori | addi | addiu | sltiu | lui | lw | sw | beq | bne | j | jal => cases hf
  all_goals exact ⟨opcodeField_registerWord .., congrArg some (functField_registerWord ..).symm⟩

/-- An IMMEDIATE or JUMP word has the operation's opcode (R62, R63). -/
theorem encode_keyed_by_opcode {k : KeyTable} {i : Instr} (hf : i.op.family ≠ .register) :
    k.key i.op = some (opcodeField (encode k i)) := by
  cases i
  case j | jal => exact congrArg some (opcodeField_jumpWord ..).symm
  case ori | addi | addiu | sltiu | lui | lw | sw | beq | bne =>
    exact congrArg some (opcodeField_immediateWord ..).symm
  all_goals exact absurd rfl hf

/-- The all-zero SLL being ill formed, only NOP has the zero word (R76). -/
theorem encode_ne_zero {k : KeyTable} (hk : k.wf) {i : Instr} (hi : i.wf) (hf : i.op.family = .register)
    (hn : i ≠ .nop) : encode k i ≠ 0 := by
  by_cases hs : i.op = .sll
  · intro hz
    have hrec := Laws.FieldRecovery.of_layout i k
    rw [hs, hz] at hrec
    exact hi hrec.symm
  · exact hk.word_ne_zero hf hs (encode_keyed_by_funct hf hn).2

theorem decodeOp_encode {k : KeyTable} (hk : k.wf) {i : Instr} (hi : i.wf) :
    decodeOp k (encode k i) = some i.op := by
  by_cases hf : i.op.family = .register
  · by_cases hn : i = .nop
    · rw [hn]; rfl
    · obtain ⟨ho, hkey⟩ := encode_keyed_by_funct (k := k) hf hn
      exact decodeOp_register hk (encode_ne_zero hk hi hf hn) ho hf hkey
  · exact decodeOp_opcode hk hf (encode_keyed_by_opcode hf)

/-! ### Encoding the operation found in a word -/

/-- A word is rebuilt from the operation its function code names (R61). -/
theorem encode_ofOp_funct {k : KeyTable} {w : Word} {op : Op} (hf : op.family = .register) (ho : opcodeField w = 0)
    (hkey : k.key op = some (functField w)) : encode k (.ofOp op w) = w := by
  cases op
  case nop => cases hkey
  case ori | addi | addiu | sltiu | lui | lw | sw | beq | bne | j | jal => cases hf
  all_goals exact (congrArg (registerWord _ _ _ _ ·) (Option.some.inj hkey)).trans (registerWord_fields w ho)

/-- A word is rebuilt from the operation its opcode names (R62, R63). -/
theorem encode_ofOp_opcode {k : KeyTable} {w : Word} {op : Op} (hf : op.family ≠ .register)
    (hkey : k.key op = some (opcodeField w)) : encode k (.ofOp op w) = w := by
  cases op
  case j | jal => exact (congrArg (jumpWord · _) (Option.some.inj hkey)).trans (jumpWord_fields w)
  case ori | addi | addiu | sltiu | lui | lw | sw | beq | bne =>
    exact (congrArg (immediateWord · _ _ _) (Option.some.inj hkey)).trans (immediateWord_fields w)
  all_goals exact absurd rfl hf

theorem encode_of_decode {k : KeyTable} (hk : k.wf) {w : Word} {i : Instr} (h : decode k w = .ok i) :
    encode k i = w := by
  obtain ⟨op, hop, rfl⟩ := decode_eq_ok.mp h
  obtain ⟨rfl, rfl⟩ | ⟨-, ho, hf, hkey⟩ | ⟨hf, hkey⟩ := decodeOp_cases hk hop
  · rfl
  · exact encode_ofOp_funct hf ho hkey
  · exact encode_ofOp_opcode hf hkey

/-- The one ill-formed instruction has NOP's word (R76). -/
theorem encode_sll_zero {k : KeyTable} (hk : k.wf) : encode k (.sll 0 0 0 0) = 0 := by
  obtain ⟨-, -, -, hsll⟩ := hk
  rw [encode, hsll]
  rfl

theorem wf_of_decode {k : KeyTable} (hk : k.wf) {w : Word} {i : Instr} (h : decode k w = .ok i) : i.wf := by
  rintro rfl
  have hw : w = 0 := (encode_of_decode hk h).symm.trans (encode_sll_zero hk)
  rw [hw, decode_zero] at h
  cases h

/-! ### The zero word -/

theorem decode_eq_nop {k : KeyTable} (hk : k.wf) (w : Word) : decode k w = .ok .nop ↔ w = 0 :=
  ⟨fun h => (encode_of_decode hk h).symm, fun h => h ▸ decode_zero k⟩

/-- SLL's function code is zero (R71), so a nonzero word with both codes zero is SLL. -/
theorem decode_sll {k : KeyTable} (hk : k.wf) {w : Word} (ho : opcodeField w = 0) (hfn : functField w = 0) (hw : w ≠ 0) :
    decode k w = .ok (.sll (rsField w) (rtField w) (rdField w) (shamtField w)) := by
  have hkey : k.key .sll = some (functField w) := by rw [KeyTable.key, hk.2.2.2, hfn]
  exact decode_eq_ok.mpr ⟨.sll, decodeOp_register hk hw ho rfl hkey, rfl⟩

namespace Machine

/-- SLL with every field zero shifts register 0 by nothing into itself (R76). -/
theorem execSll_zero (s : State) : execSll 0 0 0 0 s = .next (s.complete .sll .default .normal) := by
  have hregs : s.writeReg 0 (s.reg 0 <<< shiftCount 0) = s := by
    simp [State.writeReg, State.reg, shiftCount]
  rw [execSll, State.writeBack, hregs]

end Machine

/-! ### Sign extension -/

/-- The bits sign extension adds are all ones or all zeros, as the top bit is (R65, R66). -/
theorem signExtend_eq_or_high {n : Nat} (m : Nat) (v : BitVec n) :
    v.signExtend m = if v.getLsbD (n - 1) then BitVec.allOnes m <<< n ||| v.zeroExtend m else v.zeroExtend m := by
  rw [← BitVec.msb_eq_getLsbD_last]
  cases hm : v.msb with
  | false => exact BitVec.signExtend_eq_setWidth_of_msb_false hm
  | true =>
    refine BitVec.eq_of_getLsbD_eq fun i hi => ?_
    rw [BitVec.getLsbD_signExtend, hm, if_pos rfl]
    by_cases hlow : i < n
    · simp [hi, hlow]
    · simp [hi, hlow]

/-! ### The obligations -/

/-- Settles O1: the word names the instruction's operation, and its fields are the instruction's. -/
theorem decodeOfEncodeIsTheInstruction : Obligations.DecodeOfEncodeIsTheInstruction := by
  intro k hk i hi
  exact decode_eq_ok.mpr ⟨i.op, decodeOp_encode hk hi, Laws.FieldRecovery.of_layout i k⟩

/-- Settles O2: the word is rebuilt from its fields; the ill-formed SLL would be the zero word, which is NOP. -/
theorem encodeOfDecodeIsTheWord : Obligations.EncodeOfDecodeIsTheWord := by
  intro k hk w i h
  exact ⟨encode_of_decode hk h, wf_of_decode hk h⟩

/-- Settles O4: NOP's word is zero, SLL has the function code zero, and the all-zero SLL writes register 0 to itself. -/
theorem onlyTheZeroWordIsNop : Obligations.OnlyTheZeroWordIsNop := by
  refine ⟨fun k hk w h => (decode_eq_nop hk w).mp h, fun k hk w ho hfn => ⟨fun hw => ?_, fun hw => ?_⟩, fun s => ?_⟩
  · exact (decode_eq_nop hk w).mpr hw
  · exact decode_sll hk ho hfn hw
  · exact ⟨_, _, rfl, Machine.execSll_zero s, rfl, rfl⟩

/-- Settles O33: only the zero word is NOP, and NOP only completes. -/
theorem nopChangesNothing : Obligations.NopChangesNothing :=
  ⟨fun _ hk w => decode_eq_nop hk w, fun _ => ⟨_, rfl, rfl, rfl, rfl⟩⟩

/-- Settles O8: the two masks are the ones above the fields of 16 and of 26 bits. -/
theorem signExtensionOrsTheHighBits : Obligations.SignExtensionOrsTheHighBits := by
  have h16 : (0xFFFF0000 : Word) = BitVec.allOnes 32 <<< 16 := by decide
  have h26 : (0xFC000000 : Word) = BitVec.allOnes 32 <<< 26 := by decide
  rw [Obligations.SignExtensionOrsTheHighBits, h16, h26]
  exact ⟨signExtend_eq_or_high 32, signExtend_eq_or_high 32⟩

end Sys2Proof
end

section
/-! Proofs of the family of spec/40_register_alu.md: the word of an operation names it by its function code, and what the
operation writes to `x[rd]`. -/

namespace Sys2Proof

/-- A word with opcode zero and a function code other than SLL's is that operation with the word's fields (R75 step 3). -/
theorem decode_of_funct {k : KeyTable} (hk : k.wf) {w : Word} {op : Op} (hf : op.family = .register) (hs : op ≠ .sll)
    (ho : opcodeField w = 0) (hkey : k.key op = some (functField w)) : decode k w = .ok (.ofOp op w) :=
  decode_eq_ok.mpr ⟨op, decodeOp_register hk (hk.word_ne_zero hf hs hkey) ho hf hkey, rfl⟩

namespace Machine

/-- An instruction that writes back completes with the default PC output and status NORMAL, and changes one register. -/
theorem exec_completes_of_writeBack {i : Instr} {s : State} {op : Op} {dst : RegIndex} {v : Word}
    (h : exec i s = s.writeBack op dst v) :
    ∃ o, exec i s = .next { s with regs := s.regs.set dst v, out := some o } ∧ o.pcSel = .default ∧ o.status = .normal :=
  ⟨_, h.trans (s.writeBack_eq op dst v), rfl, rfl⟩

/-! ### What each operation writes back -/

section
variable (rs rt rd : RegIndex) (shamt : BitVec 5) (s : State)

/-- R100. -/
theorem exec_and : exec (.and rs rt rd shamt) s = s.writeBack .and rd (s.reg rs &&& s.reg rt) := rfl

/-- R101. -/
theorem exec_or : exec (.or rs rt rd shamt) s = s.writeBack .or rd (s.reg rs ||| s.reg rt) := rfl

/-- R102, with the sum taken on the natural numbers and reduced modulo 2^32. -/
theorem exec_add : exec (.add rs rt rd shamt) s =
    s.writeBack .add rd (BitVec.ofNat 32 ((s.reg rs).toNat + (s.reg rt).toNat)) := by
  rw [← BitVec.add_def]
  rfl

/-- R105, with the comparison of bit vectors, which is the unsigned one. -/
theorem exec_sltu : exec (.sltu rs rt rd shamt) s =
    s.writeBack .sltu rd (if s.reg rs < s.reg rt then 1 else 0) := by
  simp only [BitVec.lt_def]
  rfl

end

/-! ### The obligations -/

/-- Settles O9: AND is named by its function code and writes back the bitwise and. -/
theorem andWritesTheBitwiseAnd : Obligations.AndWritesTheBitwiseAnd := by
  refine ⟨fun k w hk ho hfn => ?_, fun rs rt rd shamt s => ?_⟩
  · exact decode_of_funct (op := .and) hk rfl nofun ho (congrArg some hfn.symm)
  · exact exec_completes_of_writeBack (exec_and rs rt rd shamt s)

/-- Settles O10: OR is named by its function code and writes back the bitwise or. -/
theorem orWritesTheBitwiseOr : Obligations.OrWritesTheBitwiseOr := by
  refine ⟨fun k w hk ho hfn => ?_, fun rs rt rd shamt s => ?_⟩
  · exact decode_of_funct (op := .or) hk rfl nofun ho (congrArg some hfn.symm)
  · exact exec_completes_of_writeBack (exec_or rs rt rd shamt s)

/-- Settles O11: ADD is named by its function code and writes back the wrapped sum of any operands. -/
theorem addWritesTheWrappedSum : Obligations.AddWritesTheWrappedSum := by
  refine ⟨fun k w hk ho hfn => ?_, fun rs rt rd shamt s => ?_⟩
  · exact decode_of_funct (op := .add) hk rfl nofun ho (congrArg some hfn.symm)
  · exact exec_completes_of_writeBack (exec_add rs rt rd shamt s)

/-- Settles O14: SLTU is named by its function code and writes back the unsigned comparison. -/
theorem sltuWritesTheUnsignedComparison : Obligations.SltuWritesTheUnsignedComparison := by
  refine ⟨fun k w hk ho hfn => ?_, fun rs rt rd shamt s => ?_⟩
  · exact decode_of_funct (op := .sltu) hk rfl nofun ho (congrArg some hfn.symm)
  · exact exec_completes_of_writeBack (exec_sltu rs rt rd shamt s)

end Machine
end Sys2Proof
end

section
/-! Proofs of the family of spec/41_shifts.md: the word of SLL, and the bits SLL writes to `x[rd]`. -/

namespace Sys2Proof.Machine

/-- R110. -/
theorem exec_sll (rs rt rd : RegIndex) (shamt : BitVec 5) (s : State) :
    exec (.sll rs rt rd shamt) s = s.writeBack .sll rd (s.reg rt <<< shamt.toNat) := rfl

/-- A bit of the shifted word stands `n` places lower in the operand; below bit `n` there is none, and a zero entered. -/
theorem shiftLeft_bit (x : Word) (n : Nat) {b : Nat} (hb : b < 32) :
    (x <<< n).getLsbD b = (decide (n ≤ b) && x.getLsbD (b - n)) := by
  simp only [BitVec.getLsbD_shiftLeft, hb, decide_true, Bool.true_and, ← decide_not, Nat.not_lt]

/-- Settles O15: a nonzero word with SLL's function code, which R72 makes zero, is SLL, and SLL writes back the operand with
each bit `shamt` places higher. -/
theorem sllShiftsLeftWithZeros : Obligations.SllShiftsLeftWithZeros := by
  refine ⟨fun k w hk ho hfn hw => ?_, fun rs rt rd shamt s => ?_⟩
  · have ⟨_, _, _, hsll⟩ := hk
    exact decode_sll hk ho (hfn.trans hsll) hw
  · obtain ⟨o, hexec, hout⟩ := exec_completes_of_writeBack (exec_sll rs rt rd shamt s)
    exact ⟨_, o, hexec, fun _ hb => shiftLeft_bit _ _ hb, hout⟩

end Sys2Proof.Machine
end

section
/-! Proofs of the family of spec/42_immediate_alu.md: the word of an operation names it by its opcode, and what the
operation writes to `x[rt]`. -/

namespace Sys2Proof

/-- A word whose opcode is an IMMEDIATE or JUMP operation's is that operation with the word's fields (R75 step 2). -/
theorem decode_of_opcode {k : KeyTable} (hk : k.wf) {w : Word} {op : Op} (hf : op.family ≠ .register)
    (hkey : k.key op = some (opcodeField w)) : decode k w = .ok (.ofOp op w) :=
  decode_eq_ok.mpr ⟨op, decodeOp_opcode hk hf hkey, rfl⟩

namespace Machine

/-! ### The immediate as an operand -/

/-- Zero extension puts 16 zero bits above the immediate (R67). -/
theorem zext16_eq_append (imm : BitVec 16) : zext16 imm = 0#16 ++ imm :=
  BitVec.setWidth_eq_append (by decide)

/-- LUI's operand is the immediate shifted into the upper half (R124). -/
theorem immHi_eq_shiftLeft (imm : BitVec 16) : immHi imm = imm.zeroExtend 32 <<< 16 := by
  rw [immHi, BitVec.append_def, BitVec.shiftLeftZeroExtend_eq]
  simp

/-- A sign-extended immediate adds its signed value, and the sum wraps modulo 2^32 (R121). -/
theorem add_sext16 (x : Word) (imm : BitVec 16) : x + sext16 imm = BitVec.ofInt 32 (x.toInt + imm.toInt) := by
  have himm : (sext16 imm).toInt = imm.toInt := BitVec.toInt_signExtend_of_le (by decide)
  rw [BitVec.ofInt_add, ← himm, BitVec.ofInt_toInt, BitVec.ofInt_toInt]

/-! ### What each operation writes back -/

section
variable (rs rt : RegIndex) (imm : BitVec 16) (s : State)

/-- R120. -/
theorem exec_ori : exec (.ori rs rt imm) s = s.writeBack .ori rt (s.reg rs ||| (0#16 ++ imm)) := by
  rw [← zext16_eq_append]
  rfl

/-- R121, with the sum taken on the signed readings and reduced modulo 2^32. -/
theorem exec_addi : exec (.addi rs rt imm) s =
    s.writeBack .addi rt (BitVec.ofInt 32 ((s.reg rs).toInt + imm.toInt)) := by
  rw [← add_sext16]
  rfl

/-- R122, with the sum taken as in `exec_addi`. -/
theorem exec_addiu : exec (.addiu rs rt imm) s =
    s.writeBack .addiu rt (BitVec.ofInt 32 ((s.reg rs).toInt + imm.toInt)) := by
  rw [← add_sext16]
  rfl

/-- R124. -/
theorem exec_lui : exec (.lui rs rt imm) s = s.writeBack .lui rt (imm.zeroExtend 32 <<< 16) := by
  rw [← immHi_eq_shiftLeft]
  rfl

end

/-! ### The obligations -/

/-- Settles O18: ORI is named by its opcode and writes back the or with the zero-extended immediate. -/
theorem oriWritesTheOrWithTheRawImmediate : Obligations.OriWritesTheOrWithTheRawImmediate := by
  refine ⟨fun k w hk ho => ?_, fun rs rt imm s => ?_⟩
  · exact decode_of_opcode (op := .ori) hk nofun (congrArg some ho.symm)
  · exact exec_completes_of_writeBack (exec_ori rs rt imm s)

/-- Settles O19: ADDI is named by its opcode and writes back the wrapped sum of any operands. -/
theorem addiAddsTheSignExtendedImmediate : Obligations.AddiAddsTheSignExtendedImmediate := by
  refine ⟨fun k w hk ho => ?_, fun rs rt imm s => ?_⟩
  · exact decode_of_opcode (op := .addi) hk nofun (congrArg some ho.symm)
  · exact exec_completes_of_writeBack (exec_addi rs rt imm s)

/-- Settles O20: ADDIU is named by its opcode, and from one state ADDIU and ADDI write back the same wrapped sum. -/
theorem addiuWritesWhatAddiWrites : Obligations.AddiuWritesWhatAddiWrites := by
  refine ⟨fun k w hk ho => ?_, fun rs rt imm s => ?_⟩
  · exact decode_of_opcode (op := .addiu) hk nofun (congrArg some ho.symm)
  · obtain ⟨o, haddiu, hout⟩ := exec_completes_of_writeBack (exec_addiu rs rt imm s)
    obtain ⟨o', haddi, -⟩ := exec_completes_of_writeBack (exec_addi rs rt imm s)
    exact ⟨_, o, o', haddiu, haddi, rfl, hout⟩

/-- Settles O22: LUI is named by its opcode and writes back the immediate in the upper half. -/
theorem luiLoadsTheUpperHalf : Obligations.LuiLoadsTheUpperHalf := by
  refine ⟨fun k w hk ho => ?_, fun rs rt imm s => ?_⟩
  · exact decode_of_opcode (op := .lui) hk nofun (congrArg some ho.symm)
  · exact exec_completes_of_writeBack (exec_lui rs rt imm s)

end Machine
end Sys2Proof
end

section
/-! Proofs of the family of spec/45_jump.md: the word of a jump names it by its opcode, and where the jump redirects to. -/

namespace Sys2Proof.Machine

/-- A sign-extended jump target is the word of its signed reading (R66). -/
theorem sext26_eq_ofInt (tgt : BitVec 26) : sext26 tgt = BitVec.ofInt 32 tgt.toInt := by
  rw [sext26, BitVec.signExtend]

/-- An instruction that jumps completes with a redirect to its target, and changes no register and no memory. -/
theorem exec_completes_of_jump {i : Instr} {s : State} {op : Op} {target : Word} (h : exec i s = s.jump op target) :
    ∃ o, exec i s = .next { s with out := some o } ∧ o.pcSel = .redirect target :=
  ⟨_, h.trans (s.jump_eq op target), rfl⟩

/-- R150, with the target as its signed reading. -/
theorem exec_j (tgt : BitVec 26) (s : State) : exec (.j tgt) s = s.jump .j (BitVec.ofInt 32 tgt.toInt) := by
  rw [← sext26_eq_ofInt]
  rfl

/-- Settles O30: J is named by its opcode and redirects to the sign-extended field, with no base added. -/
theorem jJumpsToTheSignedField : Obligations.JJumpsToTheSignedField := by
  refine ⟨fun k w hk ho => ?_, fun tgt s => ?_⟩
  · exact decode_of_opcode (op := .j) hk nofun (congrArg some ho.symm)
  · exact exec_completes_of_jump (exec_j tgt s)

end Sys2Proof.Machine
end

section
/-! Proofs of the family of spec/47_control_signals_and_cycles.md: the cycle costs and the cycle total are a statistic, on
which no result of a step depends. -/

namespace Sys2Proof.Machine

/-! ### What can fail -/

/-- Only a load or a store fails, with an index outside Memory (R130, R131). -/
theorem exec_eq_fault {i : Instr} {s : State} {f : Fault} : exec i s = .fault f ↔
    ∃ rs rt imm, (i = .lw rs rt imm ∨ i = .sw rs rt imm) ∧ s.element (s.effectiveIndex rs imm) = none ∧
      f = .memIndex (s.effectiveIndex rs imm) := by
  constructor
  · intro h
    cases i
    case lw rs rt imm =>
      cases he : s.element (s.effectiveIndex rs imm) with
      | none => cases (execLw_none he).symm.trans h; exact ⟨rs, rt, imm, .inl rfl, he, rfl⟩
      | some a => cases (execLw_some he).symm.trans h
    case sw rs rt imm =>
      cases he : s.element (s.effectiveIndex rs imm) with
      | none => cases (execSw_none he).symm.trans h; exact ⟨rs, rt, imm, .inr rfl, he, rfl⟩
      | some a => cases (execSw_some he).symm.trans h
    all_goals cases h
  · rintro ⟨rs, rt, imm, rfl | rfl, he, rfl⟩
    · exact execLw_none he
    · exact execSw_none he

/-- The inversion of a failed step: the fetch, the decoding or the instruction failed (R193, R196). -/
theorem step_fault {s : State} {f : Fault} (h : step s = .fault f) :
    s.run = .running ∧
      ((s.fetchElement s.pc = none ∧ f = .fetch s.pc) ∨
       (∃ a w, s.fetchElement s.pc = some a ∧ decode s.params.keys (s.mem.read a) = .decodeError w ∧ f = .decodeError w) ∨
       (∃ a i, s.fetchElement s.pc = some a ∧ decode s.params.keys (s.mem.read a) = .ok i ∧ exec i s = .fault f)) := by
  cases hr : s.run with
  | halted => cases (step_halted hr).symm.trans h
  | running =>
    refine ⟨rfl, ?_⟩
    cases hf : s.fetchElement s.pc with
    | none => cases (step_fetch_none hr hf).symm.trans h; exact .inl ⟨rfl, rfl⟩
    | some a =>
      cases hd : decode s.params.keys (s.mem.read a) with
      | decodeError w => cases (step_decodeError hr hf hd).symm.trans h; exact .inr (.inl ⟨a, w, rfl, hd, rfl⟩)
      | ok i =>
        rw [step_decoded hr hf hd] at h
        cases he : exec i s with
        | next t => rw [he] at h; cases h
        | fault g => rw [he] at h; cases h; exact .inr (.inr ⟨a, i, rfl, hd, he⟩)
        | refused r => rw [he] at h; cases h

/-! ### Other costs and another total -/

/-- `s` with another cycle total and other cycle costs (R183). -/
def State.recosted (s : State) (n : Nat) (c : CostTable) : State :=
  { s with cycles := n, params := { s.params with costs := c } }

section
variable {s t : State} (n : Nat) (c : CostTable)

/-- A completed instruction completes so with other costs too, and books its cost from the other table (R181). -/
theorem exec_next_recosted {i : Instr} (h : exec i s = .next t) :
    ∃ o, t.out = some o ∧ exec i (s.recosted n c) =
      .next { t.recosted n c with out := some { o with cycleCost := c.cycleCost i.op } } := by
  cases i
  case lw rs rt imm =>
    obtain ⟨a, ha, rfl⟩ := execLw_next h
    exact ⟨_, rfl, execLw_some (s := s.recosted n c) ha⟩
  case sw rs rt imm =>
    obtain ⟨a, ha, rfl⟩ := execSw_next h
    exact ⟨_, rfl, execSw_some (s := s.recosted n c) ha⟩
  all_goals
    cases h
    exact ⟨_, rfl, rfl⟩

/-- The index of a failed load or store depends on no cost. -/
theorem exec_fault_recosted {i : Instr} {f : Fault} (h : exec i s = .fault f) : exec i (s.recosted n c) = .fault f :=
  exec_eq_fault.mpr (exec_eq_fault (s := s).mp h)

/-- Of an instruction's outputs the driver reads the cost for the total only (R224). -/
theorem settle_recosted {o : Outputs} (ho : t.out = some o) (v : Word) :
    let u : State := { t.recosted n c with out := some { o with cycleCost := v } }
    u.settle.regs = t.settle.regs ∧ u.settle.mem = t.settle.mem ∧ u.settle.pc = t.settle.pc ∧
      u.settle.run = t.settle.run := by
  intro u
  rw [State.settle_of_out ho, State.settle_of_out (s := u) rfl]
  exact ⟨rfl, rfl, rfl, rfl⟩

theorem step_fault_recosted {f : Fault} (h : step s = .fault f) : step (s.recosted n c) = .fault f := by
  obtain ⟨hr, ⟨hf, rfl⟩ | ⟨a, w, hf, hd, rfl⟩ | ⟨a, i, hf, hd, he⟩⟩ := step_fault h
  · exact step_fetch_none (s := s.recosted n c) hr hf
  · exact step_decodeError (s := s.recosted n c) hr hf hd
  · rw [step_decoded (s := s.recosted n c) hr hf hd, exec_fault_recosted n c he]

theorem step_next_recosted (h : step s = .next t) : ∃ u, step (s.recosted n c) = .next u ∧
    u.regs = t.regs ∧ u.mem = t.mem ∧ u.pc = t.pc ∧ u.run = t.run := by
  obtain ⟨hr, rfl⟩ | ⟨a, i, u, hr, hf, hd, he, rfl⟩ := step_next h
  · exact ⟨_, step_halted (s := t.recosted n c) hr, rfl, rfl, rfl, rfl⟩
  · obtain ⟨o, ho, he'⟩ := exec_next_recosted n c he
    refine ⟨_, ?_, settle_recosted n c ho (c.cycleCost i.op)⟩
    rw [step_decoded (s := s.recosted n c) hr hf hd, he']

end

/-- Settles O58: the fetch, the decoding and the instruction read no cost and no total, and the driver reads them for the
total only. -/
theorem cyclesAreOnlyAStatistic : Obligations.CyclesAreOnlyAStatistic :=
  fun _ n c => ⟨fun _ => step_fault_recosted n c, fun _ => step_next_recosted n c⟩

end Sys2Proof.Machine
end

section
/-! Proofs about the decoder (spec/30_encoding.md): its step order, the illegal words under the default numerals, and its
agreement with the mask and match columns of spec/opcode_table.json. -/

namespace Sys2Proof

/-! ### The order of the decoder's steps -/

/-- Under R72 the three steps of R75 are the only ways to an operation. -/
theorem decodeOp_eq_some {k : KeyTable} (hk : k.wf) {w : Word} {op : Op} : decodeOp k w = some op ↔
    (w = 0 ∧ op = .nop) ∨
    (w ≠ 0 ∧ opcodeField w = 0 ∧ op.family = .register ∧ k.key op = some (functField w)) ∨
    (op.family ≠ .register ∧ k.key op = some (opcodeField w)) := by
  refine ⟨decodeOp_cases hk, ?_⟩
  rintro (⟨rfl, rfl⟩ | ⟨hw, ho, hf, hkey⟩ | ⟨hf, hkey⟩)
  · rfl
  · exact decodeOp_register hk hw ho hf hkey
  · exact decodeOp_opcode hk hf hkey

theorem decodeOp_eq_nop {k : KeyTable} (hk : k.wf) {w : Word} : decodeOp k w = some .nop ↔ w = 0 := by
  simp [decodeOp_eq_some hk, KeyTable.key]

/-- A key stands in the opcode field of no zero word (R72). -/
theorem KeyTable.wf.word_ne_zero_of_opcode {k : KeyTable} (hk : k.wf) {op : Op} (hf : op.family ≠ .register) {w : Word}
    (hkey : k.key op = some (opcodeField w)) : w ≠ 0 := by
  rintro rfl
  exact hk.opcode_ne_zero hf hkey opcodeField_zero

/-- Where no operation is found, decoding answers the error, and the error carries the word (R191). -/
theorem decode_eq_decodeError {k : KeyTable} {w v : Word} :
    decode k w = .decodeError v ↔ decodeOp k w = none ∧ v = w := by
  unfold decode
  cases decodeOp k w <;> simp [eq_comm]

/-- Settles O3: each step of R75 finds exactly the operations whose key stands in the field it looks at. -/
theorem decodeFollowsTheStepOrder : Obligations.DecodeFollowsTheStepOrder := by
  refine fun k hk w => ⟨decodeOp_eq_nop hk, fun op hop => ?_, fun i => ?_, fun v => decode_eq_decodeError⟩
  · rw [decodeOp_eq_some hk]
    constructor
    · rintro (⟨-, rfl⟩ | ⟨hw, ho, hf, hkey⟩ | ⟨hf, hkey⟩)
      · exact absurd rfl hop
      · exact ⟨hw, .inr ⟨hf, ho, hkey⟩⟩
      · exact ⟨hk.word_ne_zero_of_opcode hf hkey, .inl ⟨hf, hk.opcode_ne_zero hf hkey, hkey⟩⟩
    · rintro ⟨hw, ⟨hf, -, hkey⟩ | ⟨hf, ho, hkey⟩⟩
      · exact .inr (.inr ⟨hf, hkey⟩)
      · exact .inr (.inl ⟨hw, ho, hf, hkey⟩)
  · simp only [decode_eq_ok, eq_comm]

/-! ### The default numerals -/

theorem KeyTable.wf_mips : KeyTable.mips.wf := by decide

/-- The opcodes of R71; zero is not among them (R72). -/
theorem lookupOpcode_mips_eq_none (v : BitVec 6) : KeyTable.mips.lookupOpcode v = none ↔
    v ∉ [0x02, 0x03, 0x04, 0x05, 0x08, 0x09, 0x0B, 0x0D, 0x0F, 0x23, 0x2B] := by
  revert v; decide

/-- The function codes of R71. -/
theorem lookupFunct_mips_eq_none (v : BitVec 6) : KeyTable.mips.lookupFunct v = none ↔
    v ∉ [0x00, 0x02, 0x03, 0x08, 0x0C, 0x20, 0x21, 0x22, 0x24, 0x25, 0x2B] := by
  revert v; decide

/-- Settles O5: the first list is that of the opcode lookup with zero, which leads to the second lookup (R78). -/
theorem illegalWordsOfTheDefaultTable : Obligations.IllegalWordsOfTheDefaultTable := by
  intro w
  rw [decode_eq_decodeError, and_iff_left rfl, decodeOp]
  by_cases hw : w = 0
  · rw [hw]
    decide
  · by_cases ho : opcodeField w = 0
    · simp only [hw, ho, lookupFunct_mips_eq_none, if_false, ne_eq, not_true_eq_false, not_false_eq_true, true_and,
        List.mem_cons, true_or, false_or]
    · simp only [hw, ho, lookupOpcode_mips_eq_none, if_false, ne_eq, not_false_eq_true, if_true, false_and, or_false,
        List.mem_cons, false_or]

/-- Settles O7: the nine words are decoded. -/
theorem decodesTheSpecsWords : Obligations.DecodesTheSpecsWords := by
  unfold Obligations.DecodesTheSpecsWords
  decide

/-! ### The opcode table as masks -/

theorem extractLsb'_and_of_allOnes {lo n : Nat} {m : Word} (h : m.extractLsb' lo n = BitVec.allOnes n) (w : Word) :
    (w &&& m).extractLsb' lo n = w.extractLsb' lo n := by
  rw [BitVec.extractLsb'_and, h, BitVec.and_allOnes]

/-- The mask of an IMMEDIATE or JUMP row keeps the opcode field alone. -/
theorem and_opcodeMask (w : Word) (v : BitVec 6) : w &&& 0xFC000000 = jumpWord v 0 ↔ opcodeField w = v := by
  have hmask : w &&& 0xFC000000 = jumpWord (opcodeField w) 0 := by
    calc w &&& 0xFC000000
      _ = (opcodeField w ++ tgt26Field w) &&& (BitVec.allOnes 6 ++ 0#26) := by
        rw [← jumpWord, jumpWord_fields]; rfl
      _ = jumpWord (opcodeField w) 0 := by
        rw [BitVec.and_append, BitVec.and_allOnes, BitVec.and_zero]; rfl
  rw [hmask]
  exact ⟨fun h => by simpa using congrArg opcodeField h, fun h => by rw [h]⟩

/-- The mask of a REGISTER row keeps the opcode and the function code (R77). -/
theorem and_registerMask (w : Word) (v : BitVec 6) :
    w &&& 0xFC00003F = registerWord 0 0 0 0 v ↔ opcodeField w = 0 ∧ functField w = v := by
  have hop : opcodeField (w &&& 0xFC00003F) = opcodeField w := extractLsb'_and_of_allOnes (by decide) w
  have hfn : functField (w &&& 0xFC00003F) = functField w := extractLsb'_and_of_allOnes (by decide) w
  constructor
  · intro h
    rw [← hop, ← hfn, h]
    exact ⟨opcodeField_registerWord .., functField_registerWord ..⟩
  · rintro ⟨ho, rfl⟩
    rw [← registerWord_fields _ (hop.trans ho), hfn]
    simp [rsField, rtField, rdField, shamtField, BitVec.extractLsb'_and]

theorem Op.maskMatch_of_funct {op : Op} (hf : op.family = .register) {v : BitVec 6} (hkey : KeyTable.mips.key op = some v) :
    op.maskMatch = (0xFC00003F, registerWord 0 0 0 0 v) := by
  cases op
  case nop => cases hkey
  case ori | addi | addiu | sltiu | lui | lw | sw | beq | bne | j | jal => cases hf
  all_goals cases hkey; rfl

theorem Op.maskMatch_of_opcode {op : Op} (hf : op.family ≠ .register) {v : BitVec 6}
    (hkey : KeyTable.mips.key op = some v) : op.maskMatch = (0xFC000000, jumpWord v 0) := by
  cases op
  case ori | addi | addiu | sltiu | lui | lw | sw | beq | bne | j | jal => cases hkey; rfl
  all_goals exact absurd rfl hf

theorem Op.inRow_nop (w : Word) : Op.nop.inRow w ↔ w = 0 :=
  iff_of_eq (congrArg (· = 0) BitVec.and_allOnes)

/-- The row of a REGISTER operation: opcode zero and its function code. -/
theorem Op.inRow_of_funct {op : Op} (hf : op.family = .register) (hn : op ≠ .nop) (w : Word) :
    op.inRow w ↔ opcodeField w = 0 ∧ KeyTable.mips.key op = some (functField w) := by
  obtain ⟨v, hv⟩ := Option.ne_none_iff_exists'.mp (mt (KeyTable.key_eq_none _ op).mp hn)
  rw [Op.inRow, Op.maskMatch_of_funct hf hv, and_registerMask, hv, Option.some.injEq, eq_comm (a := v)]

/-- The row of an IMMEDIATE or JUMP operation: its opcode. -/
theorem Op.inRow_of_opcode {op : Op} (hf : op.family ≠ .register) (w : Word) :
    op.inRow w ↔ KeyTable.mips.key op = some (opcodeField w) := by
  have hn : op ≠ .nop := by rintro rfl; exact hf rfl
  obtain ⟨v, hv⟩ := Option.ne_none_iff_exists'.mp (mt (KeyTable.key_eq_none _ op).mp hn)
  rw [Op.inRow, Op.maskMatch_of_opcode hf hv, and_opcodeMask, hv, Option.some.injEq, eq_comm (a := v)]

/-- Settles O6: the bits a row's mask keeps are the fields the decoder looks its key up in. -/
theorem decoderAgreesWithTheOpcodeTable : Obligations.DecoderAgreesWithTheOpcodeTable := by
  intro w op
  by_cases hn : op = .nop
  · rw [hn, decodeOp_eq_nop KeyTable.wf_mips, Op.inRow_nop, and_iff_left fun _ => rfl]
  rw [decodeOp_eq_some KeyTable.wf_mips]
  by_cases hf : op.family = .register
  · rw [Op.inRow_of_funct hf hn]
    tauto
  · rw [Op.inRow_of_opcode hf]
    have hw := KeyTable.wf_mips.word_ne_zero_of_opcode hf (w := w)
    tauto

end Sys2Proof
end

section
/-! Proofs about register and immediate arithmetic and the shifts (spec/40_register_alu.md, 41_shifts.md,
42_immediate_alu.md): what SUB, SRL, SRA and SLTIU write back, that ADDU writes nothing, and the wrapping of sums and
differences. -/

namespace Sys2Proof.Machine

/-! ### What each operation writes back -/

/-- R103, with the difference taken on the signed readings and reduced modulo 2^32. -/
theorem exec_sub (rs rt rd : RegIndex) (shamt : BitVec 5) (s : State) : exec (.sub rs rt rd shamt) s =
    s.writeBack .sub rd (BitVec.ofInt 32 ((s.reg rs).toInt - (s.reg rt).toInt)) := by
  have hsub : s.reg rs - s.reg rt = BitVec.ofInt 32 ((s.reg rs).toInt - (s.reg rt).toInt) :=
    BitVec.eq_of_toInt_eq (by rw [BitVec.toInt_sub, BitVec.toInt_ofInt])
  rw [← hsub]
  rfl

/-- R111. -/
theorem exec_srl (rs rt rd : RegIndex) (shamt : BitVec 5) (s : State) :
    exec (.srl rs rt rd shamt) s = s.writeBack .srl rd (s.reg rt >>> shamt.toNat) := rfl

/-- R112. -/
theorem exec_sra (rs rt rd : RegIndex) (shamt : BitVec 5) (s : State) :
    exec (.sra rs rt rd shamt) s = s.writeBack .sra rd ((s.reg rt).sshiftRight shamt.toNat) := rfl

/-- R123: zero extension leaves the immediate's unsigned reading as it is. -/
theorem exec_sltiu (rs rt : RegIndex) (imm : BitVec 16) (s : State) : exec (.sltiu rs rt imm) s =
    s.writeBack .sltiu rt (if (s.reg rs).toNat < imm.toNat then 1 else 0) := by
  have himm : (zext16 imm).toNat = imm.toNat := BitVec.toNat_setWidth_of_le (by decide)
  rw [← himm]
  rfl

/-! ### The bits of a right shift -/

/-- A bit of the word shifted right stands `n` places higher in the operand; above bit 31 there is none, and a zero
entered. -/
theorem ushiftRight_bit (x : Word) (n b : Nat) :
    (x >>> n).getLsbD b = (decide (b + n < 32) && x.getLsbD (b + n)) := by
  rw [BitVec.getLsbD_ushiftRight, Nat.add_comm]
  by_cases h : b + n < 32
  · simp [h]
  · simp [h, BitVec.getLsbD_of_ge x (b + n) (by omega)]

/-- As `ushiftRight_bit`, but a copy of bit 31 entered. -/
theorem sshiftRight_bit (x : Word) (n : Nat) {b : Nat} (hb : b < 32) :
    (x.sshiftRight n).getLsbD b = if b + n < 32 then x.getLsbD (b + n) else x.getLsbD 31 := by
  rw [BitVec.getLsbD_sshiftRight, BitVec.msb_eq_getLsbD_last, Nat.add_comm n b]
  simp [hb]

/-! ### The obligations -/

/-- Settles O12: SUB is named by its function code and writes back the wrapped difference of any operands. -/
theorem subWritesTheWrappedDifference : Obligations.SubWritesTheWrappedDifference := by
  refine ⟨fun k w hk ho hfn => ?_, fun rs rt rd shamt s => ?_⟩
  · exact decode_of_funct (op := .sub) hk rfl nofun ho (congrArg some hfn.symm)
  · exact exec_completes_of_writeBack (exec_sub rs rt rd shamt s)

/-- Settles O13: ADDU is named by its function code and only completes (R104). -/
theorem adduChangesNothing : Obligations.AdduChangesNothing := by
  refine ⟨fun k w hk ho hfn => ?_, fun rs rt rd shamt s => ?_⟩
  · exact decode_of_funct (op := .addu) hk rfl nofun ho (congrArg some hfn.symm)
  · exact ⟨_, rfl, rfl, rfl, rfl⟩

/-- Settles O16: SRL is named by its function code and writes back the operand with each bit `shamt` places lower. -/
theorem srlShiftsRightWithZeros : Obligations.SrlShiftsRightWithZeros := by
  refine ⟨fun k w hk ho hfn => ?_, fun rs rt rd shamt s => ?_⟩
  · exact decode_of_funct (op := .srl) hk rfl nofun ho (congrArg some hfn.symm)
  · obtain ⟨o, hexec, hout⟩ := exec_completes_of_writeBack (exec_srl rs rt rd shamt s)
    exact ⟨_, o, hexec, fun b _ => ushiftRight_bit _ _ b, hout⟩

/-- Settles O17: SRA is named by its function code; its shift copies bit 31 in and rounds toward minus infinity. -/
theorem sraShiftsRightWithTheSign : Obligations.SraShiftsRightWithTheSign := by
  refine ⟨fun k w hk ho hfn => ?_, fun rs rt rd shamt s => ?_⟩
  · exact decode_of_funct (op := .sra) hk rfl nofun ho (congrArg some hfn.symm)
  · obtain ⟨o, hexec, hout⟩ := exec_completes_of_writeBack (exec_sra rs rt rd shamt s)
    have hdiv : ((s.reg rt).sshiftRight shamt.toNat).toInt = (s.reg rt).toInt / 2 ^ shamt.toNat := by
      rw [BitVec.toInt_sshiftRight, Int.shiftRight_eq_div_pow]
      norm_cast
    exact ⟨_, o, hexec, fun _ hb => sshiftRight_bit _ _ hb, hdiv, hout⟩

/-- Settles O21: SLTIU is named by its opcode and writes back the unsigned comparison with the raw immediate. -/
theorem sltiuComparesWithTheRawImmediate : Obligations.SltiuComparesWithTheRawImmediate := by
  refine ⟨fun k w hk ho => ?_, fun rs rt imm s => ?_⟩
  · exact decode_of_opcode (op := .sltiu) hk nofun (congrArg some ho.symm)
  · exact exec_completes_of_writeBack (exec_sltiu rs rt imm s)

/-- Settles O44: the value written back is the wrapped sum or difference (R102, R103, R121), read either way. -/
theorem arithmeticWrapsUnderBothReadings : Obligations.ArithmeticWrapsUnderBothReadings := by
  intro s rs rt rd shamt imm
  refine ⟨_, _, _, rfl, rfl, exec_addi rs rt imm s, ?_⟩
  simp only [State.complete_reg, State.writeReg_reg_self]
  refine ⟨BitVec.toNat_add .., BitVec.toInt_add .., ?_, BitVec.toInt_sub .., BitVec.toInt_ofInt ..⟩
  rw [BitVec.toNat_sub, Nat.add_comm]

end Sys2Proof.Machine
end

section
/-! Proofs about Memory and its accesses (spec/20_memory.md, 43_load_store.md): the effective index, a write read back, LW
and SW inside and outside Memory, and a store seen by a later fetch. -/

namespace Sys2Proof.Machine

/-! ### The index -/

/-- R132: the sum of the unsigned readings, modulo 2^32. -/
theorem State.effectiveIndex_toNat (s : State) (rs : RegIndex) (imm : BitVec 16) :
    (s.effectiveIndex rs imm).toNat = ((s.reg rs).toNat + imm.toNat) % 2 ^ 32 := by
  have himm : (zext16 imm).toNat = imm.toNat := BitVec.toNat_setWidth_of_le (by decide)
  rw [State.effectiveIndex, BitVec.toNat_add, himm]

/-- In a Memory of at most 2^31 elements the unsigned reading of an index gives the signed one's verdict (R41). -/
theorem State.element_eq_some_unsigned {s : State} {idx : Word} {a : Nat} (h : s.params.memWords ≤ 2 ^ 31) :
    s.element idx = some a ↔ idx.toNat < s.params.memWords ∧ a = idx.toNat := by
  rw [State.element_eq_some]
  have hn := BitVec.toInt_eq_toNat_cond idx
  have := idx.isLt
  split_ifs at hn <;> omega

/-- Different indices name different elements. -/
theorem State.element_inj {s : State} {i j : Word} {a : Nat} (hi : s.element i = some a) (hj : s.element j = some a) :
    i = j := by
  obtain ⟨-, -, hi⟩ := State.element_eq_some.mp hi
  obtain ⟨-, -, hj⟩ := State.element_eq_some.mp hj
  exact BitVec.eq_of_toNat_eq (hi.symm.trans hj)

/-! ### A write read back -/

/-- `s` with `v` in element `a`. -/
def State.writeElement (s : State) (a : Nat) (v : Word) : State := { s with mem := s.mem.write a v }

theorem State.memRead_writeElement_self {s : State} (hm : Memory.wf s.mem) {idx : Word} {a : Nat}
    (h : s.element idx = some a) (v : Word) : (s.writeElement a v).memRead idx = .ok v := by
  rw [State.memRead_some (s := s.writeElement a v) h]
  simp [State.writeElement, Memory.read_write hm]

theorem State.memRead_writeElement_ne {s : State} (hm : Memory.wf s.mem) {idx j : Word} {a : Nat}
    (h : s.element idx = some a) (hj : j ≠ idx) (v : Word) : (s.writeElement a v).memRead j = s.memRead j := by
  cases hb : s.element j with
  | none => rw [State.memRead_none hb, State.memRead_none (s := s.writeElement a v) hb]
  | some b =>
    have hba : b ≠ a := by rintro rfl; exact hj (State.element_inj hb h)
    rw [State.memRead_some hb, State.memRead_some (s := s.writeElement a v) hb]
    simp [State.writeElement, Memory.read_write hm, hba]

/-! ### The obligations -/

/-- Settles O26: the unsigned verdict differs from the signed one only for an element at 2^31 or above. -/
theorem indexIsLegalInsideMemoryOnly : Obligations.IndexIsLegalInsideMemoryOnly :=
  fun s rs imm => ⟨s.effectiveIndex_toNat rs imm,
    fun _ _ => ⟨State.element_eq_some, State.element_eq_some_unsigned⟩⟩

/-- Settles O27: two indices that differ name different elements, so a write to one leaves the other. -/
theorem writeThenReadOfMemory : Obligations.WriteThenReadOfMemory := by
  refine fun s idx v hm => ⟨fun a ha => ?_, fun hnone => ?_⟩
  · exact ⟨s.writeElement a v, State.memWrite_some ha, State.memRead_writeElement_self hm ha v,
      fun j hj => State.memRead_writeElement_ne hm ha hj v⟩
  · exact ⟨State.memWrite_none hnone, State.memRead_none hnone⟩

/-- Settles O23: LW is named by its opcode and writes back the element its index names. -/
theorem lwLoadsTheIndexedWord : Obligations.LwLoadsTheIndexedWord := by
  refine ⟨fun k w hk ho => ?_, fun rs rt imm s idx hidx h0 hlt => ?_⟩
  · exact decode_of_opcode (op := .lw) hk nofun (congrArg some ho.symm)
  · subst hidx
    exact exec_completes_of_writeBack (execLw_some (State.element_eq_some.mpr ⟨h0, hlt, rfl⟩))

/-- Settles O24: SW is named by its opcode and writes the element its index names and no other. -/
theorem swStoresTheIndexedWord : Obligations.SwStoresTheIndexedWord := by
  refine ⟨fun k w hk ho => ?_, fun rs rt imm s idx hm hidx h0 hlt => ?_⟩
  · exact decode_of_opcode (op := .sw) hk nofun (congrArg some ho.symm)
  · subst hidx
    have he := State.element_eq_some.mpr ⟨h0, hlt, rfl⟩
    exact ⟨_, _, execSw_some he, fun b => Memory.read_write hm _ b _, rfl, rfl⟩

/-- Settles O25: outside Memory the index names no element. -/
theorem accessOutsideMemoryFaults : Obligations.AccessOutsideMemoryFaults := by
  rintro rs rt imm s idx rfl hout
  have hnone := State.element_eq_none.mpr hout
  exact ⟨execLw_none hnone, execSw_none hnone⟩

/-- Settles O57: the fetch reads the element SW wrote, in the one Memory both use. -/
theorem storesAreSeenByLaterFetches : Obligations.StoresAreSeenByLaterFetches := by
  intro s rs rt imm p a hm he hf
  refine ⟨_, execSw_some he, ?_⟩
  rw [State.fetch_some (a := a) hf]
  simp [Memory.read_write hm]

end Sys2Proof.Machine
end

section
/-! Proofs about branches, jumps and HALT (spec/44_branch.md, 45_jump.md, 46_nop_halt.md). -/

namespace Sys2Proof.Machine

/-! ### How a branch completes -/

/-- An instruction that branches changes no register and no memory; it redirects with status NORMAL when its condition
holds, else it gives the default PC output with BRANCH_NOT_TAKEN (R140, R141). -/
theorem exec_completes_of_branch {i : Instr} {s : State} {op : Op} {taken : Bool} {target : Word}
    (h : exec i s = s.branch op taken target) : ∃ o, exec i s = .next { s with out := some o } ∧
      (taken = true → o.pcSel = .redirect target ∧ o.status = .normal) ∧
      (taken = false → o.pcSel = .default ∧ o.status = .branchNotTaken) := by
  refine ⟨_, h.trans (s.branch_eq op taken target), ?_, ?_⟩
  · rintro rfl; exact ⟨rfl, rfl⟩
  · rintro rfl; exact ⟨rfl, rfl⟩

/-- R140, with the zero extension written out. -/
theorem exec_beq (rs rt : RegIndex) (imm : BitVec 16) (s : State) : exec (.beq rs rt imm) s =
    s.branch .beq (s.reg rs == s.reg rt) (s.pcIn + (0#16 ++ imm)) := by
  rw [← zext16_eq_append]
  rfl

/-- R141, with the sum taken on the signed readings and reduced modulo 2^32. -/
theorem exec_bne (rs rt : RegIndex) (imm : BitVec 16) (s : State) : exec (.bne rs rt imm) s =
    s.branch .bne (s.reg rs != s.reg rt) (BitVec.ofInt 32 (s.pcIn.toInt + imm.toInt)) := by
  rw [← add_sext16]
  rfl

/-- R151: the link is written before the redirect. -/
theorem exec_jal (tgt : BitVec 26) (s : State) : exec (.jal tgt) s =
    (s.writeReg linkReg s.pcIn).jump .jal (s.params.programBase + BitVec.ofInt 32 tgt.toInt) := by
  rw [← sext26_eq_ofInt]
  rfl

/-! ### The obligations -/

/-- Settles O28: BEQ is named by its opcode and branches on equal registers. -/
theorem beqBranchesByTheRawOffset : Obligations.BeqBranchesByTheRawOffset := by
  refine ⟨fun k w hk ho => ?_, fun rs rt imm s => ?_⟩
  · exact decode_of_opcode (op := .beq) hk nofun (congrArg some ho.symm)
  · obtain ⟨o, hexec, htaken, hnot⟩ := exec_completes_of_branch (exec_beq rs rt imm s)
    exact ⟨o, hexec, fun heq => htaken (beq_iff_eq.mpr heq), fun hne => hnot (beq_false_of_ne hne)⟩

/-- Settles O29: BNE is named by its opcode and branches on unequal registers. -/
theorem bneBranchesByTheSignedOffset : Obligations.BneBranchesByTheSignedOffset := by
  refine ⟨fun k w hk ho => ?_, fun rs rt imm s => ?_⟩
  · exact decode_of_opcode (op := .bne) hk nofun (congrArg some ho.symm)
  · obtain ⟨o, hexec, htaken, hnot⟩ := exec_completes_of_branch (exec_bne rs rt imm s)
    exact ⟨o, hexec, fun hne => htaken (bne_iff_ne.mpr hne), fun heq => hnot (by simp [heq])⟩

/-- Settles O31: JAL is named by its opcode, links the PC handed in and redirects from PROGRAM_BASE. -/
theorem jalLinksAndJumpsFromTheBase : Obligations.JalLinksAndJumpsFromTheBase := by
  refine ⟨fun k w hk ho => ?_, fun tgt s => ?_⟩
  · exact decode_of_opcode (op := .jal) hk nofun (congrArg some ho.symm)
  · exact ⟨_, exec_jal tgt s, rfl⟩

/-- Settles O32: JR is named by its function code and redirects to the register. -/
theorem jrJumpsToTheRegister : Obligations.JrJumpsToTheRegister := by
  refine ⟨fun k w hk ho hfn => ?_, fun rs rt rd shamt s => ?_⟩
  · exact decode_of_funct (op := .jr) hk rfl nofun ho (congrArg some hfn.symm)
  · exact ⟨_, rfl, rfl, rfl⟩

/-- Settles O34: HALT is named by its function code and only completes, with status HALT. -/
theorem haltSignalsAndChangesNothing : Obligations.HaltSignalsAndChangesNothing := by
  refine ⟨fun k w hk ho hfn => ?_, fun rs rt rd shamt s => ?_⟩
  · exact decode_of_funct (op := .halt) hk rfl nofun ho (congrArg some hfn.symm)
  · exact ⟨_, rfl, rfl, rfl, rfl⟩

/-- With PC_IN_OFFSET 0 the core is handed the instruction's own address (D11). -/
theorem State.pcIn_of_offset_zero {s : State} (h : s.params.pcInOffset = .zero) : s.pcIn = s.pc := by
  simp [State.pcIn, h, PcInOffset.word]

/-- Settles O45: the link register holds what JAL was handed in, which is its own address. -/
theorem jrAfterJalReturnsToTheJal : Obligations.JrAfterJalReturnsToTheJal := by
  intro tgt rt rd shamt s hoff
  have hlink : (s.writeReg linkReg s.pcIn).reg 31 = s.pc :=
    (s.writeReg_reg_self linkReg _).trans (State.pcIn_of_offset_zero hoff)
  exact ⟨_, _, _, exec_jal tgt s, rfl, rfl, congrArg PcSel.redirect hlink⟩

end Sys2Proof.Machine
end

section
/-! Proofs of the rules over all 23 instructions (spec/10_state.md, 60_exceptions.md,
47_control_signals_and_cycles.md): which registers an instruction depends on, which read the PC, the tables of the PC
output, the status and the cost, and what can fail. -/

namespace Sys2Proof.Machine

/-! ### Which registers an instruction depends on -/

/-- `u` and `t` have the same outputs, the same memory and the same value in the written register. -/
def SameResult (dst : Option RegIndex) (u t : State) : Prop :=
  u.out = t.out ∧ u.mem = t.mem ∧ ∀ r, dst = some r → u.reg r = t.reg r

/-- What is written to a register does not depend on the other registers. -/
theorem sameResult_of_write (s : State) (regs : Vector Word 32) (dst : RegIndex) (v : Word) (op : Op) (sel : PcSel)
    (st : Status) : SameResult (some dst) ((State.writeReg { s with regs := regs } dst v).complete op sel st)
      ((s.writeReg dst v).complete op sel st) := by
  refine ⟨rfl, rfl, ?_⟩
  rintro r ⟨⟩
  simp only [State.complete_reg, State.writeReg_reg_self]

/-- An instruction that completes does so from any registers that agree on those it reads (R25). -/
theorem exec_next_with_regs {i : Instr} {s t : State} {regs : Vector Word 32}
    (hreads : ∀ r ∈ i.reads, regs[r] = s.reg r) (h : exec i s = .next t) : ∃ u, exec i { s with regs := regs } = .next u ∧ SameResult i.writes u t := by
  have hreg : ∀ r ∈ i.reads, State.reg { s with regs := regs } r = s.reg r := hreads
  cases i
  case nop | addu | halt | j =>
    cases h
    exact ⟨_, rfl, rfl, rfl, nofun⟩
  case lui | jal =>
    cases h
    exact ⟨_, rfl, sameResult_of_write ..⟩
  case lw rs rt imm =>
    obtain ⟨a, ha, rfl⟩ := execLw_next h
    rw [State.effectiveIndex, ← hreg rs (by simp [Instr.reads])] at ha
    exact ⟨_, execLw_some (s := { s with regs := regs }) ha, sameResult_of_write ..⟩
  case sw rs rt imm =>
    obtain ⟨a, ha, rfl⟩ := execSw_next h
    rw [State.effectiveIndex, ← hreg rs (by simp [Instr.reads])] at ha
    rw [← hreg rt (by simp [Instr.reads])]
    exact ⟨_, execSw_some (s := { s with regs := regs }) ha, rfl, rfl, nofun⟩
  case jr | beq | bne =>
    simp only [Instr.reads, List.forall_mem_cons] at hreg
    cases h
    simp only [exec, execJr, execBeq, execBne, hreg]
    exact ⟨_, rfl, rfl, rfl, nofun⟩
  all_goals
    simp only [Instr.reads, List.forall_mem_cons] at hreg
    cases h
    simp only [exec, execAnd, execOr, execAdd, execSub, execSltu, execSll, execSrl, execSra, execOri, execAddi, execAddiu,
      execSltiu, hreg]
    exact ⟨_, rfl, sameResult_of_write ..⟩

/-- Whether an access fails depends on the base register only. -/
theorem exec_fault_with_regs {i : Instr} {s : State} {regs : Vector Word 32} (hreads : ∀ r ∈ i.reads, regs[r] = s.reg r)
    {f : Fault} (h : exec i s = .fault f) : exec i { s with regs := regs } = .fault f := by
  obtain ⟨rs, rt, imm, hi, hnone, rfl⟩ := exec_eq_fault.mp h
  have hrs : State.reg { s with regs := regs } rs = s.reg rs :=
    hreads rs (by rcases hi with rfl | rfl <;> simp [Instr.reads])
  have hidx : State.effectiveIndex { s with regs := regs } rs imm = s.effectiveIndex rs imm :=
    congrArg (· + zext16 imm) hrs
  exact exec_eq_fault.mpr ⟨rs, rt, imm, hi, hidx ▸ hnone, congrArg Fault.memIndex hidx.symm⟩

/-- Settles O37: the operands of every instruction are the registers of its "reads" column. -/
theorem onlyTheListedRegistersAreRead : Obligations.OnlyTheListedRegistersAreRead :=
  fun _ _ _ hreads => ⟨fun _ => exec_fault_with_regs hreads, fun _ => exec_next_with_regs hreads⟩

/-! ### Which instructions read the PC -/

/-- Settles O39: no rule but those of the two branches and JAL mentions the PC handed in (R29). -/
theorem onlyBranchesAndJalReadThePc : Obligations.OnlyBranchesAndJalReadThePc := by
  intro i s p hbeq hbne hjal
  refine ⟨fun t h => ?_, fun f h => exec_eq_fault.mpr (exec_eq_fault (s := s).mp h)⟩
  cases i
  case beq rs rt imm => exact absurd rfl (hbeq rs rt imm)
  case bne rs rt imm => exact absurd rfl (hbne rs rt imm)
  case jal tgt => exact absurd rfl (hjal tgt)
  case lw rs rt imm =>
    obtain ⟨a, ha, rfl⟩ := execLw_next h
    exact execLw_some (s := { s with pc := p }) ha
  case sw rs rt imm =>
    obtain ⟨a, ha, rfl⟩ := execSw_next h
    exact execSw_some (s := { s with pc := p }) ha
  all_goals
    cases h
    rfl

/-! ### The tables of the outputs -/

/-- Settles O40: each rule hands over its row's target, and a branch the default when its condition is false (R31). -/
theorem nextPcTable : Obligations.NextPcTable := by
  intro i s t h
  cases i
  case lw rs rt imm =>
    obtain ⟨a, -, rfl⟩ := execLw_next h
    exact ⟨_, rfl, rfl⟩
  case sw rs rt imm =>
    obtain ⟨a, -, rfl⟩ := execSw_next h
    exact ⟨_, rfl, rfl⟩
  case beq rs rt imm =>
    cases h
    exact ⟨_, rfl, by simp [branchPcSel]⟩
  case bne rs rt imm =>
    cases h
    exact ⟨_, rfl, by simp [branchPcSel]⟩
  all_goals
    cases h
    exact ⟨_, rfl, rfl⟩

theorem branchStatus_ne_halt (taken : Bool) : branchStatus taken ≠ .halt := by
  cases taken <;> decide

theorem branchStatus_eq_branchNotTaken {taken : Bool} : branchStatus taken = .branchNotTaken ↔ taken = false := by
  cases taken <;> decide

/-- Settles O41: HALT is the one instruction with status HALT, a false branch the one with BRANCH_NOT_TAKEN (R195). -/
theorem statusTable : Obligations.StatusTable := by
  intro i s t h
  cases i
  case lw rs rt imm =>
    obtain ⟨a, -, rfl⟩ := execLw_next h
    exact ⟨_, rfl, by simp, by simp⟩
  case sw rs rt imm =>
    obtain ⟨a, -, rfl⟩ := execSw_next h
    exact ⟨_, rfl, by simp, by simp⟩
  case beq | bne =>
    cases h
    exact ⟨_, rfl, by simp [branchStatus_ne_halt], by simp [branchStatus_eq_branchNotTaken]⟩
  all_goals
    cases h
    exact ⟨_, rfl, by simp, by simp⟩

/-- Settles O42: the outputs hold the operation's timing class and its cost (R181), and the table is R70's column. -/
theorem costFollowsTheTimingClass : Obligations.CostFollowsTheTimingClass := by
  intro i s t h
  obtain ⟨sel, st, ho⟩ := exec_out h
  exact ⟨_, ho, by cases i <;> rfl⟩

/-! ### What can fail -/

theorem exec_ne_refused (i : Instr) (s : State) (r : Refusal) : exec i s ≠ .refused r := by
  obtain ⟨o, v, q, h⟩ | ⟨o, h⟩ | ⟨o, idx, a, v, -, h⟩ | ⟨idx, -, h⟩ := exec_cases i s <;> simp [h]

theorem step_ne_refused (s : State) (r : Refusal) : step s ≠ .refused r := by
  intro h
  cases hr : s.run with
  | halted => cases (step_halted hr).symm.trans h
  | running =>
    cases hf : s.fetchElement s.pc with
    | none => cases (step_fetch_none hr hf).symm.trans h
    | some a =>
      cases hd : decode s.params.keys (s.mem.read a) with
      | decodeError w => cases (step_decodeError hr hf hd).symm.trans h
      | ok i =>
        rw [step_decoded hr hf hd] at h
        cases he : exec i s with
        | next t => rw [he] at h; cases h
        | fault f => rw [he] at h; cases h
        | refused q => exact exec_ne_refused i s q he

/-- Settles O43: an instruction completes or fails, and only LW and SW fail; a step adds the fetch's and the decoder's
errors, and no refusal. -/
theorem onlyLoadsAndStoresCanFail : Obligations.OnlyLoadsAndStoresCanFail := by
  refine ⟨fun i s => ?_, step_ne_refused⟩
  cases h : exec i s with
  | next t => exact .inl ⟨t, rfl⟩
  | fault f =>
    obtain ⟨rs, rt, imm, hi, hnone, rfl⟩ := exec_eq_fault.mp h
    exact .inr ⟨rs, rt, imm, hi, hnone, rfl⟩
  | refused r => exact absurd h (exec_ne_refused i s r)

end Sys2Proof.Machine
end

section
/-! Proofs about the datapath (spec/47_control_signals_and_cycles.md R171 to R173) and the output ports (spec/10_state.md
R39). -/

namespace Sys2Proof.Machine

/-! ### The signals that are the rule's operands by a computation -/

/-- The low five bits of the B input are the shift count (R172). -/
theorem shiftCount_eq_bInput (v : BitVec 5) : shiftCount v = ((v.zeroExtend 32).extractLsb' 0 5).toNat := by
  rw [BitVec.extractLsb'_setWidth_of_le (by decide), BitVec.extractLsb'_eq_self, shiftCount]

/-- BEQ's PC output comes from the EQ result (R172). -/
theorem branchPcSel_eq_brEqZ (w a b : Word) (s : State) :
    branchPcSel (a == b) (s.pcIn + zext16 (imm16Field w)) = PcCtl.select w (AluFn.apply a b .eq) s .brEqZ := by
  by_cases h : a = b <;> simp [PcCtl.select, AluFn.apply, branchPcSel, h]

/-- BNE's PC output comes from the EQ result (R172). -/
theorem branchPcSel_eq_brNeS (w a b : Word) (s : State) :
    branchPcSel (a != b) (s.pcIn + sext16 (imm16Field w)) = PcCtl.select w (AluFn.apply a b .eq) s .brNeS := by
  by_cases h : a = b <;> simp [PcCtl.select, AluFn.apply, branchPcSel, h]

/-- NT reads the status of a branch off its PC output (R172). -/
theorem branchStatus_eq_nt (taken : Bool) (target : Word) :
    branchStatus taken = StCtl.select (branchPcSel taken target) .nt := by
  cases taken <;> rfl

theorem State.branch_eq_nt (s : State) (op : Op) (taken : Bool) (target : Word) : s.branch op taken target =
    .next (s.complete op (branchPcSel taken target) (StCtl.select (branchPcSel taken target) .nt)) := by
  rw [State.branch, branchStatus_eq_nt taken target]

/-! ### The ports of an access -/

section
variable (dc w : Word) (s : State)

/-- LW's index is the ALU result, and the access decides between the write-back and the error (R130). -/
theorem commit_opPorts_lw : commit s (opPorts dc .lw w s) = exec (.ofOp .lw w) s := by
  have halu : (controlWord .lw).alu dc w s = s.effectiveIndex (rsField w) (imm16Field w) := rfl
  cases he : s.element (s.effectiveIndex (rsField w) (imm16Field w)) with
  | none =>
    refine Eq.trans ?_ (execLw_none he).symm
    simp only [opPorts, halu, he]
    rfl
  | some a =>
    refine Eq.trans ?_ (execLw_some he).symm
    simp only [opPorts, halu, he]
    rfl

/-- SW's index is the ALU result, and the access decides between the store and the error (R131). -/
theorem commit_opPorts_sw : commit s (opPorts dc .sw w s) = exec (.ofOp .sw w) s := by
  have halu : (controlWord .sw).alu dc w s = s.effectiveIndex (rsField w) (imm16Field w) := rfl
  cases he : s.element (s.effectiveIndex (rsField w) (imm16Field w)) with
  | none =>
    refine Eq.trans ?_ (execSw_none he).symm
    simp only [opPorts, halu, he]
    rfl
  | some a =>
    refine Eq.trans ?_ (execSw_some he).symm
    obtain ⟨-, -, rfl⟩ := State.element_eq_some.mp he
    simp only [opPorts, halu, he]
    rfl

/-- The operation port names the operation. -/
theorem opPorts_op (op : Op) : (opPorts dc op w s).op = some op := rfl

/-- A failing access disables both writes and gives no outputs (R197). -/
theorem opPorts_no_writes {op : Op} (h : (opPorts dc op w s).error ≠ .none) : (opPorts dc op w s).regWrite = none ∧
    (opPorts dc op w s).memWrite = none ∧ (opPorts dc op w s).outputs = none := by
  simp only [opPorts] at h ⊢
  split_ifs at h with hf
  · simp [hf]
  · exact absurd rfl h

/-- The error of an operation's ports is none or an access's. -/
theorem opPorts_error_ne_decodeError (op : Op) (v : Word) : (opPorts dc op w s).error ≠ .decodeError v := by
  simp only [opPorts]
  split_ifs <;> nofun

/-- No control word reads and writes memory (R48, R171). -/
theorem controlWord_one_access (op : Op) : (controlWord op).memRe = false ∨ (controlWord op).memWe = false := by
  cases op <;> decide

theorem opPorts_one_access (op : Op) : (opPorts dc op w s).memRead = none ∨ (opPorts dc op w s).memWrite = none := by
  rcases controlWord_one_access op with h | h
  · exact .inl (by simp [opPorts, h])
  · exact .inr (by simp [opPorts, h])

/-! ### The ports of the core -/

theorem corePorts_of_decodeOp {op : Op} (h : decodeOp s.params.keys w = some op) :
    corePorts dc w s = opPorts dc op w s := by
  simp only [corePorts, h]

theorem corePorts_of_none (h : decodeOp s.params.keys w = none) :
    corePorts dc w s = ⟨none, none, none, none, none, .decodeError w⟩ := by
  simp only [corePorts, h]

end

/-! ### The obligations -/

/-- Settles O46: the datapath computes each rule's operands; a load or store reads the access's verdict too. -/
theorem datapathMatchesTheInstructionRules : Obligations.DatapathMatchesTheInstructionRules := by
  intro dc w op s
  cases op
  case lw => exact commit_opPorts_lw dc w s
  case sw => exact commit_opPorts_sw dc w s
  case sll | srl | sra =>
    simp only [Instr.ofOp, exec, execSll, execSrl, execSra, shiftCount_eq_bInput]
    rfl
  case beq =>
    rw [Instr.ofOp, exec, execBeq, State.branch_eq_nt, branchPcSel_eq_brEqZ]
    rfl
  case bne =>
    rw [Instr.ofOp, exec, execBne, State.branch_eq_nt, branchPcSel_eq_brNeS]
    rfl
  all_goals rfl

/-- Settles O47: the decoder chooses the operation's ports, of which O46 speaks, or raises its error alone. -/
theorem portsMatchTheCoreStep : Obligations.PortsMatchTheCoreStep := by
  intro dc w s
  cases h : decodeOp s.params.keys w with
  | some op =>
    rw [corePorts_of_decodeOp dc w s h]
    refine ⟨?_, opPorts_no_writes dc w s, opPorts_one_access dc w s op, ?_⟩
    · rw [datapathMatchesTheInstructionRules, coreStep, decode_eq_ok.mpr ⟨op, h, rfl⟩]
    · exact iff_of_false nofun (opPorts_error_ne_decodeError dc w s op w)
  | none =>
    rw [corePorts_of_none dc w s h, coreStep, decode_eq_decodeError.mpr ⟨h, rfl⟩]
    exact ⟨rfl, fun _ => ⟨rfl, rfl, rfl⟩, .inl rfl, iff_of_true rfl rfl⟩

end Sys2Proof.Machine
end

section
/-! Proofs about the reference driver and the run (spec/70_reset_and_hazards.md R222 to R225, 60_exceptions.md R196): the
fetch, the order of the errors, the step, the launch and the end of a run. -/

namespace Sys2Proof.Machine

/-! ### The fetch -/

/-- When the PC maps to no element (R223). -/
theorem State.fetchElement_eq_none {s : State} {p : Word} : s.fetchElement p = none ↔
    (p - s.params.programBase).toNat % 4 ≠ 0 ∨ (p - s.params.programBase).toInt < 0 ∨
      (s.params.memWords : Int) ≤ (p - s.params.programBase).toInt / 4 := by
  simp only [State.fetchElement, ite_eq_right_iff, reduceCtorEq, imp_false, not_and_or, not_le, not_lt, ne_eq]

/-- Settles O49: the three conditions are those under which the PC maps to no element, and the element is the quotient. -/
theorem fetchMapsThePcToAnElement : Obligations.FetchMapsThePcToAnElement := by
  rintro s off rfl
  refine ⟨fun hout => ?_, fun hal h0 hlt => ?_⟩
  · have hnone := State.fetchElement_eq_none.mpr hout
    exact ⟨State.fetch_none hnone, fun hr => step_fetch_none hr hnone⟩
  · exact State.fetch_some (State.fetchElement_eq_some.mpr ⟨hal, h0, hlt, rfl⟩)

/-! ### The order of the errors -/

/-- A step fails as its instruction does (R197). -/
theorem step_exec_fault {s : State} {a : Nat} {i : Instr} {f : Fault} (hr : s.run = .running)
    (hf : s.fetchElement s.pc = some a) (hd : decode s.params.keys (s.mem.read a) = .ok i) (he : exec i s = .fault f) :
    step s = .fault f := by
  rw [step_decoded hr hf hd, he]

/-- Settles O50: the step fetches, decodes and executes in this order, and each error ends it (R196). -/
theorem errorsComeInTheFixedOrder : Obligations.ErrorsComeInTheFixedOrder := by
  intro s f hr
  constructor
  · intro h
    obtain ⟨-, hfetch | ⟨a, w, hf, hd, rfl⟩ | ⟨a, i, hf, hd, he⟩⟩ := step_fault h
    · exact .inl hfetch
    · obtain ⟨-, rfl⟩ := decode_eq_decodeError.mp hd
      exact .inr ⟨a, hf, .inl ⟨hd, rfl⟩⟩
    · obtain ⟨rs, rt, imm, hi, hnone, rfl⟩ := exec_eq_fault.mp he
      have hacc := hi.imp (hd.trans <| congrArg DecodeResult.ok ·) (hd.trans <| congrArg DecodeResult.ok ·)
      exact .inr ⟨a, hf, .inr ⟨rs, rt, imm, hacc, hnone, rfl⟩⟩
  · rintro (⟨hf, rfl⟩ | ⟨a, hf, ⟨hd, rfl⟩ | ⟨rs, rt, imm, hd | hd, hnone, rfl⟩⟩)
    · exact step_fetch_none hr hf
    · exact step_decodeError hr hf hd
    · exact step_exec_fault hr hf hd (execLw_none hnone)
    · exact step_exec_fault hr hf hd (execSw_none hnone)

/-! ### The step of a completed instruction -/

/-- The whole of a step whose instruction completes: the cost is booked, and the run ended or the PC moved (R224). -/
theorem step_exec_next {s t : State} {a : Nat} {i : Instr} {o : Outputs} (hr : s.run = .running)
    (hf : s.fetchElement s.pc = some a) (hd : decode s.params.keys (s.mem.read a) = .ok i) (he : exec i s = .next t)
    (ho : t.out = some o) : step s = .next { t with
      cycles := s.cycles + (bookedCost s.params.costs o).toNat
      run := if o.status = .halt then .halted else .running
      pc := if o.status = .halt then s.pc else nextPc s.pc o.pcSel } := by
  obtain ⟨-, -, hpc, hcycles, hrun, hparams⟩ := instructionsKeepTheirFrame i s t he
  rw [step_decoded hr hf hd, he]
  simp only [State.settle_of_out ho, hpc, hcycles, hrun, hparams, hr]

/-- Settles O48: each clause is one status and PC output of `step_exec_next`; a false branch has the default one (R30). -/
theorem stepRunsTheDecodedInstruction : Obligations.StepRunsTheDecodedInstruction := by
  refine fun s a i hr hf hd => ⟨fun f he => step_exec_fault hr hf hd he, fun t he => ?_⟩
  obtain ⟨-, -, hpc, -, hrun, -⟩ := instructionsKeepTheirFrame i s t he
  obtain ⟨sel, st, ho⟩ := exec_out he
  obtain ⟨-, hbranch, -, -⟩ := exec_outputs_consistent he _ ho
  have hrunning : t.run = .running := hrun.trans hr
  refine ⟨_, ho, ?_, ?_, ?_, ?_⟩
  · rintro ⟨⟩
    simp [step_exec_next hr hf hd he ho, bookedCost, hpc]
  · rintro ⟨⟩ p ⟨⟩
    simp [step_exec_next hr hf hd he ho, bookedCost, nextPc, hrunning]
  · rintro ⟨⟩ ⟨⟩
    simp [step_exec_next hr hf hd he ho, bookedCost, nextPc, hrunning]
  · rintro ⟨⟩
    obtain ⟨-, ⟨⟩⟩ := hbranch rfl
    simp [step_exec_next hr hf hd he ho, bookedCost, nextPc, hrunning]

/-- Settles O54: the run ends on status HALT, which only HALT has (R195), and HALT changes nothing (R161). -/
theorem onlyHaltEndsARun : Obligations.OnlyHaltEndsARun := by
  intro s t hr h
  obtain ⟨hh, -⟩ | ⟨a, i, u, -, hf, hd, he, -⟩ := step_next h
  · cases hr.symm.trans hh
  obtain ⟨o, ho, hhalt, -⟩ := statusTable i s u he
  cases (step_exec_next hr hf hd he ho).symm.trans h
  have hend : (if o.status = .halt then RunStatus.halted else .running) = .halted ↔ o.status = .halt := by
    split_ifs with hst <;> simp [hst]
  refine ⟨?_, fun hrun => ?_⟩
  · rw [hend, hhalt]
    constructor
    · rintro ⟨rs, rt, rd, shamt, rfl⟩
      exact ⟨_, rs, rt, rd, shamt, State.fetch_some hf, hd⟩
    · rintro ⟨w, rs, rt, rd, shamt, hw, hdw⟩
      cases (State.fetch_some hf).symm.trans hw
      exact ⟨rs, rt, rd, shamt, DecodeResult.ok.inj (hd.symm.trans hdw)⟩
  · have hst := hend.mp hrun
    obtain ⟨rs, rt, rd, shamt, rfl⟩ := hhalt.mp hst
    cases he
    exact ⟨if_pos hst, rfl, rfl⟩

/-! ### The launch and the placed word -/

/-- Settles O52: the caller's memory and parameters are legal, and a launch has no outputs and has not ended (R222). -/
theorem everyLegalLaunchMeetsTheInvariant : Obligations.EveryLegalLaunchMeetsTheInvariant :=
  fun _ _ _ _ hp hm hbound =>
    ⟨⟨hp, hm, hbound, nofun, nofun⟩, fun _ => rfl, fun _ => rfl, rfl, rfl, rfl⟩

/-- Settles O51: the state after reset is a legal launch with no cell of memory listed. -/
theorem resetMeetsTheInvariant : Obligations.ResetMeetsTheInvariant :=
  (everyLegalLaunchMeetsTheInvariant .default (Vector.replicate 32 0) [] 0 (by decide) Memory.wf_nil nofun).1

/-- After `makeFetchable` the PC maps to an element; memory and the end of the run are as before. -/
theorem State.makeFetchable_spec (s : State) : (∃ a, s.makeFetchable.fetchElement s.makeFetchable.pc = some a) ∧
    s.makeFetchable.mem = s.mem ∧ s.makeFetchable.run = s.run := by
  unfold State.makeFetchable
  cases h : s.fetchElement s.pc with
  | some a => exact ⟨⟨a, h⟩, rfl, rfl⟩
  | none =>
    refine ⟨⟨0, State.fetchElement_eq_some.mpr ?_⟩, rfl, rfl⟩
    simp

/-- A word placed where the PC maps to is the word fetched, and the end of the run is as before. -/
theorem State.placeFetchWord_spec {s : State} {a : Nat} (hm : Memory.wf s.mem) (h : s.fetchElement s.pc = some a)
    (w : Word) : (s.placeFetchWord w).run = s.run ∧ (s.placeFetchWord w).fetch = .ok w := by
  have hplaced : s.placeFetchWord w = s.writeElement a w := by simp only [State.placeFetchWord, h, State.writeElement]
  have hread : (s.writeElement a w).mem.read a = w := by simp [State.writeElement, Memory.read_write hm]
  rw [hplaced]
  exact ⟨rfl, (State.fetch_some (s := s.writeElement a w) h).trans (congrArg Except.ok hread)⟩

/-- Settles O59: the PC is made to map to an element, and the word is placed there. -/
theorem aPlacedWordIsFetchedNext : Obligations.APlacedWordIsFetchedNext := by
  intro s w hm
  have hw : BitVec.ofNat 32 (w.toNat % 2 ^ 32) = w := by
    rw [Nat.mod_eq_of_lt w.isLt, BitVec.ofNat_toNat, BitVec.setWidth_eq]
  obtain ⟨⟨a, ha⟩, hmem, hrun⟩ := State.makeFetchable_spec { s with run := .running }
  obtain ⟨hrun', hfetch⟩ := State.placeFetchWord_spec (by rw [hmem]; exact hm) ha w
  rw [State.withFetchWord, hw]
  exact ⟨hrun'.trans hrun, hfetch⟩

/-! ### How a run ends -/

theorem runEnd_of_halted {s : State} (h : s.run = .halted) (n : Nat) : runEnd n s = .halted s := by
  cases n <;> simp [runEnd, h]

theorem runEnd_of_step_next {s t : State} (hr : s.run = .running) (h : step s = .next t) (n : Nat) :
    runEnd (n + 1) s = runEnd n t := by
  simp only [runEnd, hr, h]

theorem runEnd_of_step_fault {s : State} {f : Fault} (hr : s.run = .running) (h : step s = .fault f) (n : Nat) :
    runEnd (n + 1) s = .faulted f s := by
  simp only [runEnd, hr, h]

/-- A step of this machine answers a next state or a fault. -/
theorem step_next_or_fault (s : State) : (∃ t, step s = .next t) ∨ ∃ f, step s = .fault f := by
  cases h : step s with
  | next t => exact .inl ⟨t, rfl⟩
  | fault f => exact .inr ⟨f, rfl⟩
  | refused r => exact absurd h (step_ne_refused s r)

/-- Once it has ended, watching a run longer changes nothing. -/
theorem runEnd_of_le {n m : Nat} {s : State} (hnm : n ≤ m) (hend : ∀ t, runEnd n s ≠ .unfinished t) :
    runEnd m s = runEnd n s := by
  induction n generalizing s m with
  | zero =>
    cases hr : s.run with
    | halted => rw [runEnd_of_halted hr, runEnd_of_halted hr]
    | running => exact absurd (by simp only [runEnd, hr]) (hend s)
  | succ n ih =>
    obtain ⟨m, rfl⟩ : ∃ m', m = m' + 1 := ⟨m - 1, by omega⟩
    cases hr : s.run with
    | halted => rw [runEnd_of_halted hr, runEnd_of_halted hr]
    | running =>
      obtain ⟨t, h⟩ | ⟨f, h⟩ := step_next_or_fault s
      · rw [runEnd_of_step_next hr h] at hend ⊢
        rw [runEnd_of_step_next hr h]
        exact ih (Nat.le_of_succ_le_succ hnm) hend
      · rw [runEnd_of_step_fault hr h, runEnd_of_step_fault hr h]

/-- A run is said to have halted with a halted state only. -/
theorem run_of_runEnd_halted {n : Nat} {s t : State} (h : runEnd n s = .halted t) : t.run = .halted := by
  induction n generalizing s with
  | zero =>
    cases hr : s.run with
    | halted => cases (runEnd_of_halted hr 0).symm.trans h; exact hr
    | running => simp only [runEnd, hr, reduceCtorEq] at h
  | succ n ih =>
    cases hr : s.run with
    | halted => cases (runEnd_of_halted hr (n + 1)).symm.trans h; exact hr
    | running =>
      obtain ⟨u, hu⟩ | ⟨f, hf⟩ := step_next_or_fault s
      · exact ih ((runEnd_of_step_next hr hu n).symm.trans h)
      · cases (runEnd_of_step_fault hr hf n).symm.trans h

/-- A run is said to have faulted with a running state only, whose next step is the fault. -/
theorem step_of_runEnd_faulted {n : Nat} {s t : State} {f : Fault} (h : runEnd n s = .faulted f t) :
    t.run = .running ∧ step t = .fault f := by
  induction n generalizing s with
  | zero => cases hr : s.run <;> simp only [runEnd, hr, reduceCtorEq] at h
  | succ n ih =>
    cases hr : s.run with
    | halted => cases (runEnd_of_halted hr (n + 1)).symm.trans h
    | running =>
      obtain ⟨u, hu⟩ | ⟨g, hg⟩ := step_next_or_fault s
      · exact ih ((runEnd_of_step_next hr hu n).symm.trans h)
      · cases (runEnd_of_step_fault hr hg n).symm.trans h
        exact ⟨hr, hg⟩

/-- Settles O55: watching longer changes nothing, and what the end says of its state holds (R225). -/
theorem theEndOfARunIsFinal : Obligations.TheEndOfARunIsFinal := by
  refine fun n m s t f hnm => ⟨fun h => ?_, fun h => ?_⟩
  · have hrun := run_of_runEnd_halted h
    exact ⟨(runEnd_of_le hnm (by simp [h])).trans h, hrun, step_halted hrun⟩
  · exact ⟨(runEnd_of_le hnm (by simp [h])).trans h, step_of_runEnd_faulted h⟩

/-! ### Runs that never end -/

/-- A run whose every step keeps a predicate of running states never ends. -/
theorem nonTerminating_of_kept {P : State → Prop} (hrun : ∀ s, P s → s.run = .running)
    (hstep : ∀ s, P s → ∃ t, step s = .next t ∧ P t) {s : State} (hs : P s) : NonTerminating s := by
  intro n
  induction n generalizing s with
  | zero => exact ⟨s, by simp only [runEnd, hrun s hs]⟩
  | succ n ih =>
    obtain ⟨t, ht, hP⟩ := hstep s hs
    rw [runEnd_of_step_next (hrun s hs) ht]
    exact ih hP

/-- The two instructions of R225's examples: one that redirects to the PC it stands at. -/
def branchesToItself (i : Instr) (s : State) : Prop :=
  (∃ r, s.params.pcInOffset = .zero ∧ i = .beq r r 0) ∨ ∃ tgt, i = .j tgt ∧ sext26 tgt = s.pc

/-- Such an instruction completes with nothing but its outputs, and these redirect to the PC. -/
theorem exec_of_branchesToItself {i : Instr} {s : State} (h : branchesToItself i s) :
    ∃ o, exec i s = .next { s with out := some o } ∧ o.pcSel = .redirect s.pc ∧ o.status = .normal := by
  obtain ⟨r, hoff, rfl⟩ | ⟨tgt, rfl, htgt⟩ := h
  · obtain ⟨o, hexec, htaken, -⟩ := exec_completes_of_branch (exec_beq r r 0 s)
    obtain ⟨hsel, hst⟩ := htaken (beq_self_eq_true _)
    refine ⟨o, hexec, hsel.trans ?_, hst⟩
    simp [State.pcIn_of_offset_zero hoff]
  · exact ⟨_, rfl, congrArg PcSel.redirect htgt, rfl⟩

/-- The run goes on, and the PC maps to an instruction that branches to itself. -/
def LoopsInPlace (s : State) : Prop :=
  s.run = .running ∧ ∃ a i, s.fetchElement s.pc = some a ∧ decode s.params.keys (s.mem.read a) = .ok i ∧
    branchesToItself i s

theorem step_keeps_loopsInPlace {s : State} (h : LoopsInPlace s) : ∃ t, step s = .next t ∧ LoopsInPlace t := by
  obtain ⟨hr, a, i, hf, hd, hi⟩ := h
  obtain ⟨o, he, hsel, hst⟩ := exec_of_branchesToItself hi
  refine ⟨_, step_exec_next hr hf hd he rfl, ?_⟩
  simp only [hst, hsel, nextPc, reduceCtorEq, if_false]
  exact ⟨rfl, a, i, hf, hd, hi⟩

/-- Settles O56: both examples loop in place, and a step keeps a run there. -/
theorem branchesToThemselvesNeverEnd : Obligations.BranchesToThemselvesNeverEnd := by
  intro s w hr hw hi
  refine nonTerminating_of_kept (P := LoopsInPlace) (fun _ ⟨hr, _⟩ => hr) (fun _ => step_keeps_loopsInPlace) ?_
  cases hf : s.fetchElement s.pc with
  | none => cases (State.fetch_none hf).symm.trans hw
  | some a =>
    cases (State.fetch_some hf).symm.trans hw
    obtain ⟨r, hoff, hd⟩ | ⟨tgt, hd, htgt⟩ := hi
    · exact ⟨hr, a, _, hf, hd, .inl ⟨r, hoff, rfl⟩⟩
    · exact ⟨hr, a, _, hf, hd, .inr ⟨tgt, rfl, htgt⟩⟩

end Sys2Proof.Machine
end
